-- ==== Sys2Proof/Word.lean ====
section
/-! DEFINITION. The machine word and the reduction modulo 2^16 (00_scope.md rules R11, R12). -/

namespace Sys2Proof

/-- A register, a program counter, a memory cell, an instruction: 16 bits, bit 15 the most significant (R11). -/
abbrev Word := BitVec 16

/-- A byte of a serialised program file. The machine itself has no bytes (R60, R70). -/
abbrev Byte := BitVec 8

/-- `mask16(v) = v mod 2^16` for any integer `v`, a negative one included (R12). -/
def mask16 (v : Int) : Word := BitVec.ofInt 16 v

end Sys2Proof
end

