-- ==== Sys2Proof/Syntax.lean ====
section
/-! DEFINITION. The rows of the opcode table, the instruction formats and the decoded instruction
(00_scope.md R15, 30_encoding.md R92, R97, R102). -/

namespace Sys2Proof

/-- A register number. A 4-bit field names every register and nothing else (10_state.md R22). -/
abbrev RegIdx := Fin 16

/-- The format families of Table A, and the seventh variant for an opcode that is not defined
(30_encoding.md R92, R99). -/
inductive Format where
  | r | i | s | b | j | special | invalid
  deriving DecidableEq, Repr

/-- The 16 rows of the opcode table: 13 instructions (30_encoding.md R97) and 3 reserved ones (R99). -/
inductive Mnemonic where
  | add | sub | and | or | xor
  | addi | lw
  | sw
  | beq | bne
  | jal
  | nop | halt
  | reservedD | reservedE | reservedF
  deriving DecidableEq, Repr

/-- The format the ISA Definition gives a mnemonic (30_encoding.md R97, R98). -/
def Mnemonic.format : Mnemonic → Format
  | .add | .sub | .and | .or | .xor => .r
  | .addi | .lw => .i
  | .sw => .s
  | .beq | .bne => .b
  | .jal => .j
  | .nop | .halt => .special
  | .reservedD | .reservedE | .reservedF => .invalid

/-- The row is an instruction and not a reserved opcode: the record is "marked valid" (R99, R102). -/
def Mnemonic.valid (k : Mnemonic) : Bool := k.format != .invalid

/-- A decoded instruction: each constructor carries exactly the fields its format defines
(30_encoding.md R92, R102). A 4-bit `imm` or `off` of LW, SW, ADDI is read unsigned (R93, R94), the
`off` of BEQ, BNE, JAL as a signed number (R95, R96). An Invalid record carries the raw word (R99). -/
inductive Instr where
  | add (rd rs1 rs2 : RegIdx)
  | sub (rd rs1 rs2 : RegIdx)
  | and (rd rs1 rs2 : RegIdx)
  | or (rd rs1 rs2 : RegIdx)
  | xor (rd rs1 rs2 : RegIdx)
  | addi (rd rs1 : RegIdx) (imm : BitVec 4)
  | lw (rd rs1 : RegIdx) (imm : BitVec 4)
  | sw (rs2 rs1 : RegIdx) (off : BitVec 4)
  | beq (rs1 rs2 : RegIdx) (off : BitVec 4)
  | bne (rs1 rs2 : RegIdx) (off : BitVec 4)
  | jal (rd : RegIdx) (off : BitVec 8)
  | nop
  | halt
  | reservedD (raw : Word)
  | reservedE (raw : Word)
  | reservedF (raw : Word)
  deriving DecidableEq, Repr

/-- What the decoder gives for a word: the instruction with the fields its format defines, the raw word, which every
variant carries, and whether the record is marked valid (30_encoding.md R102). -/
structure Decoded where
  raw : Word
  instr : Instr
  valid : Bool
  deriving DecidableEq, Repr

/-- The row of the opcode table an instruction belongs to. -/
def Instr.mnemonic : Instr → Mnemonic
  | .add _ _ _ => .add
  | .sub _ _ _ => .sub
  | .and _ _ _ => .and
  | .or _ _ _ => .or
  | .xor _ _ _ => .xor
  | .addi _ _ _ => .addi
  | .lw _ _ _ => .lw
  | .sw _ _ _ => .sw
  | .beq _ _ _ => .beq
  | .bne _ _ _ => .bne
  | .jal _ _ => .jal
  | .nop => .nop
  | .halt => .halt
  | .reservedD _ => .reservedD
  | .reservedE _ => .reservedE
  | .reservedF _ => .reservedF

end Sys2Proof
end

