-- ==== Sys2Proof/Config.lean ====
section
/-! DEFINITION. The session's configuration (00_scope.md R9, R10; 10_state.md R20, R35): the open parameters, the
opcode map and the ALU-code map. The values in force at reset are in Machine/Session.lean, the standard opcode map in Decode.lean. -/

namespace Sys2Proof

/-- The ISA Definition: "a fixed table of 16 opcode slots" (30_encoding.md R91). Slot `n` is the row that
opcode `n` selects. DESIGN CHOICE (log 5): it is a parameter, because R98's numbering is the spec's decision D2. -/
structure OpMap where
  slots : Vector Mnemonic 16
  deriving DecidableEq, Repr

/-- The row an opcode selects (R91). -/
def OpMap.slot (m : OpMap) (op : BitVec 4) : Mnemonic := m.slots[op.toNat]

/-- Some opcode selects the row. -/
def OpMap.defines (m : OpMap) (k : Mnemonic) : Bool := m.slots.toList.contains k

/-- No instruction stands at two opcodes; a reserved row may (30_encoding.md R91, R98). -/
def OpMap.wf (m : OpMap) : Bool :=
  decide (∀ p q : BitVec 4, m.slot p = m.slot q → (m.slot p).valid = true → p = q)

/-! ### The ALU's operation codes (41_alu.md R170, R171) -/

/-- The seven operations (R170). -/
inductive AluOp where
  | add | sub | and | or | xor | eq | ne
  deriving DecidableEq, Repr

/-- The seven operations in the order R171 lists them. -/
def AluOp.all : List AluOp := [.add, .sub, .and, .or, .xor, .eq, .ne]

/-- The ALU-code map: slot `n` is the operation code `n` stands for, if any. It is a parameter, as R10 asks: R171's
numbering is the spec's decision D3 (log 21). -/
structure AluMap where
  slots : Vector (Option AluOp) 8
  deriving DecidableEq, Repr

/-- The operation of a code; an unassigned code has none (R173). -/
def AluMap.opOf (m : AluMap) (c : BitVec 3) : Option AluOp := m.slots[c.toNat]

/-- Every operation has a code, and no operation has two (R171). -/
def AluMap.wf (m : AluMap) : Bool :=
  AluOp.all.all (fun op => m.slots.toList.contains (some op)) &&
    decide (∀ c d : BitVec 3, m.opOf c = m.opOf d → (m.opOf c).isSome = true → c = d)

/-- The configuration of a session, constant from creation to teardown (00_scope.md R9, 10_state.md R20, R35). -/
structure Config where
  /-- `IM_SIZE`, the number of words of Instruction Memory. -/
  imSize : Nat
  /-- `DM_SIZE`, the number of words of Data Memory. -/
  dmSize : Nat
  /-- `DM_BASE`, the logical base address of the Data Memory block. -/
  dmBase : Nat
  /-- `STRICT`: true selects the strict error policy. -/
  strict : Bool
  /-- `MAX_CYCLES_DEFAULT`, the budget of `run` when the host gives none. -/
  maxCyclesDefault : Nat
  /-- `LOG_BOUND`, the capacity of the diagnostic log. -/
  logBound : Nat
  /-- `OPMAP`, the opcode map. -/
  opMap : OpMap
  /-- The 3-bit ALU code of each ALU operation (R10, D3; log 21). -/
  aluMap : AluMap
  deriving DecidableEq, Repr

/-- The ranges R9 gives the sizes, and usable opcode and ALU-code maps. -/
def Config.wf (c : Config) : Bool :=
  decide (1 ≤ c.imSize ∧ c.imSize ≤ 65536 ∧ 1 ≤ c.dmSize ∧ c.dmSize ≤ 65536) && c.opMap.wf && c.aluMap.wf

end Sys2Proof
end

