-- ==== Sys2Proof/WellFormed.lean ====
section
/-! DEFINITION. Which instructions, words and programs are well-formed under an opcode map
(30_encoding.md R99 to R103; 93_implementation_defined.md U1, U2). -/

namespace Sys2Proof

/-- The map has an opcode for the instruction; an Invalid record's raw word has the opcode of its row
(30_encoding.md R99, R103). Register and immediate fields cannot be out of range: their types have the
fields' widths (R101). -/
def Instr.wellFormed (m : OpMap) : Instr → Bool
  | .add _ _ _ => m.defines .add
  | .sub _ _ _ => m.defines .sub
  | .and _ _ _ => m.defines .and
  | .or _ _ _ => m.defines .or
  | .xor _ _ _ => m.defines .xor
  | .addi _ _ _ => m.defines .addi
  | .lw _ _ _ => m.defines .lw
  | .sw _ _ _ => m.defines .sw
  | .beq _ _ _ => m.defines .beq
  | .bne _ _ _ => m.defines .bne
  | .jal _ _ => m.defines .jal
  | .nop => m.defines .nop
  | .halt => m.defines .halt
  | .reservedD raw => m.slot (raw.extractLsb' 12 4) == .reservedD
  | .reservedE raw => m.slot (raw.extractLsb' 12 4) == .reservedE
  | .reservedF raw => m.slot (raw.extractLsb' 12 4) == .reservedF

/-- A Special word whose unused low 12 bits are not zero: a reserved encoding (30_encoding.md R100, U2). -/
def specialLowBitsSet (m : OpMap) (w : Word) : Bool :=
  (m.slot (w.extractLsb' 12 4)).format == .special && w.extractLsb' 0 12 != 0

/-- A word a program may hold: no reserved opcode (U1) and no reserved Special encoding (U2). -/
def wordWellFormed (m : OpMap) (w : Word) : Bool :=
  (m.slot (w.extractLsb' 12 4)).valid && !specialLowBitsSet m w

/-- Every word of the program is well-formed (U1, U2). The machine itself runs any word: this is a check for
claims about programs, and no rule of the core reads it. -/
def programWellFormed (m : OpMap) (words : List Word) : Bool := words.all (wordWellFormed m)

end Sys2Proof
end

