-- ==== Sys2Proof/Decode.lean ====
section
/-! DEFINITION. The standard opcode map, the decoder and the encoder (30_encoding.md R91 to R103). -/

namespace Sys2Proof

/-- The opcode map of 30_encoding.md R98, slot 0 first (the spec's decisions D1, D2; log 5). -/
def OpMap.standard : OpMap :=
  { slots := #v[.add, .sub, .and, .or, .xor, .addi, .lw, .sw,
                .beq, .bne, .jal, .nop, .halt, .reservedD, .reservedE, .reservedF] }

/-- Bits 15-12, the opcode (R91). -/
def opcodeField (w : Word) : BitVec 4 := w.extractLsb' 12 4

/-- The 4-bit field whose lowest bit is `lo`, as a register number (R92). -/
def regField (w : Word) (lo : Nat) : RegIdx := ⟨(w.extractLsb' lo 4).toNat, (w.extractLsb' lo 4).isLt⟩

/-- Bits 3-0, the immediate or offset of formats I, S and B (R92). -/
def imm4Field (w : Word) : BitVec 4 := w.extractLsb' 0 4

/-- Bits 7-0, the offset of format J (R92). -/
def imm8Field (w : Word) : BitVec 8 := w.extractLsb' 0 8

/-- The instruction of the decoder's record: a pure, total function of the word; an opcode the map gives no instruction is the Invalid
record with the raw word (R99, R102). The low bits of a Special word are ignored (R100, D12; log 7). -/
def decode (m : OpMap) (w : Word) : Instr :=
  match m.slot (opcodeField w) with
  | .add => .add (regField w 8) (regField w 4) (regField w 0)
  | .sub => .sub (regField w 8) (regField w 4) (regField w 0)
  | .and => .and (regField w 8) (regField w 4) (regField w 0)
  | .or => .or (regField w 8) (regField w 4) (regField w 0)
  | .xor => .xor (regField w 8) (regField w 4) (regField w 0)
  | .addi => .addi (regField w 8) (regField w 4) (imm4Field w)
  | .lw => .lw (regField w 8) (regField w 4) (imm4Field w)
  | .sw => .sw (regField w 8) (regField w 4) (imm4Field w)
  | .beq => .beq (regField w 8) (regField w 4) (imm4Field w)
  | .bne => .bne (regField w 8) (regField w 4) (imm4Field w)
  | .jal => .jal (regField w 8) (imm8Field w)
  | .nop => .nop
  | .halt => .halt
  | .reservedD => .reservedD w
  | .reservedE => .reservedE w
  | .reservedF => .reservedF w

/-- The decoder's whole record: the decoded instruction with the raw word and the valid mark. Words that decode to one
instruction (two NOP words that differ in their low bits) have records that differ in the raw word (R102). -/
def decodeRecord (m : OpMap) (w : Word) : Decoded :=
  { raw := w, instr := decode m w, valid := (decode m w).mnemonic.valid }

/-- The opcode of a row: the first slot that holds it (R98). Meaningful where `m.defines k`. -/
def OpMap.codeOf (m : OpMap) (k : Mnemonic) : BitVec 4 := BitVec.ofNat 4 (m.slots.toList.idxOf k)

/-- A register number as a field. -/
def regBits (r : RegIdx) : BitVec 4 := BitVec.ofNat 4 r.val

/-- A word of four 4-bit fields, the opcode in the high bits (R92). -/
def packFields (op a b c : BitVec 4) : Word := op ++ a ++ b ++ c

/-- The encoder, from the same map and the same layout as the decoder (R92, R103). -/
def encode (m : OpMap) : Instr → Word
  | .add rd rs1 rs2 => packFields (m.codeOf .add) (regBits rd) (regBits rs1) (regBits rs2)
  | .sub rd rs1 rs2 => packFields (m.codeOf .sub) (regBits rd) (regBits rs1) (regBits rs2)
  | .and rd rs1 rs2 => packFields (m.codeOf .and) (regBits rd) (regBits rs1) (regBits rs2)
  | .or rd rs1 rs2 => packFields (m.codeOf .or) (regBits rd) (regBits rs1) (regBits rs2)
  | .xor rd rs1 rs2 => packFields (m.codeOf .xor) (regBits rd) (regBits rs1) (regBits rs2)
  | .addi rd rs1 imm => packFields (m.codeOf .addi) (regBits rd) (regBits rs1) imm
  | .lw rd rs1 imm => packFields (m.codeOf .lw) (regBits rd) (regBits rs1) imm
  | .sw rs2 rs1 off => packFields (m.codeOf .sw) (regBits rs2) (regBits rs1) off
  | .beq rs1 rs2 off => packFields (m.codeOf .beq) (regBits rs1) (regBits rs2) off
  | .bne rs1 rs2 off => packFields (m.codeOf .bne) (regBits rs1) (regBits rs2) off
  | .jal rd off => packFields (m.codeOf .jal) (regBits rd) (off.extractLsb' 4 4) (off.extractLsb' 0 4)
  | .nop => packFields (m.codeOf .nop) 0 0 0
  | .halt => packFields (m.codeOf .halt) 0 0 0
  | .reservedD raw => raw
  | .reservedE raw => raw
  | .reservedF raw => raw

/-- The instruction the decoder reads under the standard map from a table word of `nbits` bits: one 16-bit
cell, bit 0 the least significant (R11, R90). The decoder is total, so it always answers. -/
def decodeTableWord (nbits w : Nat) : Option Instr :=
  some (decode OpMap.standard (BitVec.ofNat 16 (w % 2 ^ nbits)))

end Sys2Proof
end

