-- ==== Sys2Proof/Machine/Session.lean ====
section
/-! DEFINITION. The standard ALU-code map, and the configuration in force in State.reset (00_scope.md R9, R10). -/

namespace Sys2Proof

/-- The codes of 41_alu.md R171: ADD 0 to NE 6, and 7 unassigned (the spec's decisions D3, D15; log 21). -/
def AluMap.standard : AluMap :=
  { slots := #v[some .add, some .sub, some .and, some .or, some .xor, some .eq, some .ne, none] }

/-- The code of an operation: the first slot that holds it (R171). Meaningful where `m.wf`. -/
def AluMap.codeOf (m : AluMap) (op : AluOp) : BitVec 3 := BitVec.ofNat 3 (m.slots.toList.idxOf (some op))

/-- The reference configuration: `IM_SIZE = 256`, `DM_SIZE = 256`, `DM_BASE = 0`, graceful policy (00_scope.md R9:
"this spec's own choice for illustration"). DESIGN CHOICE (log 2): the cycle budget and the log capacity, to which
the spec gives no value. Every claim quantifies over the configuration, so none rests on these numbers. -/
def Config.reference : Config :=
  { imSize := 256, dmSize := 256, dmBase := 0, strict := false,
    maxCyclesDefault := 10000, logBound := 64, opMap := OpMap.standard,
    aluMap := AluMap.standard }

end Sys2Proof
end

