-- ==== Sys2Proof/Machine/State.lean ====
section
/-! DEFINITION. The machine's state as plain data, its reset, and the reasons a step can stop
(10_state.md R20 to R55; 60_exceptions.md R260, R261). -/

namespace Sys2Proof.Machine

/-- One word of memory at an address: the addressable unit of both memories is the 16-bit word (20_memory.md R60). -/
abbrev WordCell := Nat × Word

/-- A memory as the list of its cells that are not 0, by strictly rising address. DESIGN CHOICE (log 4): cells are
words, since the machine has no bytes (20_memory.md R60, R70). -/
abbrev Memory := List WordCell

/-- What a cell that is not listed reads as: 0 (10_state.md R55, 20_memory.md R62, R64, R75). -/
def Memory.unlisted : Word := 0

/-- The canonical form: addresses strictly rising, no entry equal to what an unlisted cell reads as. -/
def Memory.wf : Memory → Bool
  | [] => true
  | (a, v) :: m => v != Memory.unlisted && m.all (fun c => decide (a < c.1)) && Memory.wf m

/-- Every listed address is below `size`. -/
def Memory.within (m : Memory) (size : Nat) : Bool := m.all (fun c => decide (c.1 < size))

/-- The register file: 16 registers of 16 bits (10_state.md R22). Slot 0 is never read: register 0 is hardwired in
the operations that read and write registers (Machine/Ops.lean). -/
abbrev RegFile := Vector Word 16

/-- The three ALU flags (10_state.md R29). -/
structure Flags where
  /-- Zero: the masked result is 0. -/
  z : Bool
  /-- Negative: bit 15 of the masked result. -/
  n : Bool
  /-- Overflow: the unsigned carry out of an ADD. -/
  v : Bool
  deriving DecidableEq, Repr

/-- The error kinds (60_exceptions.md R260): names, no numbers. -/
inductive ErrorKind where
  | memoryFault
  | invalidInstruction
  | invalidOperand
  | capacityExceeded
  deriving DecidableEq, Repr

/-- Which way a data access goes (60_exceptions.md R261). -/
inductive Access where
  | read
  | write
  deriving DecidableEq, Repr

/-- A run-time error with the information it carries (60_exceptions.md R261, less the message, whose text the spec
does not give; log 16). Under the graceful policy it is a record of the diagnostic log; under the strict policy it is
the outcome of the step, and the state before the call stands (R262, R263). -/
inductive Fault where
  /-- MemoryFault of an instruction fetch with `pc ≥ IM_SIZE` (R63). Raised by `fetch`. Safe: the spec's own stop
  under the strict policy. -/
  | fetchOutOfRange (pc : Word)
  /-- MemoryFault of LW or SW with `ea ≥ DM_SIZE` (R67, R68). Raised by `loadWord` and `storeWord`. Safe: the spec's own
  stop under the strict policy. -/
  | dataOutOfRange (access : Access) (pc : Word) (instr : Instr) (ea : Word)
  /-- InvalidInstruction: the fetched word has a reserved opcode (R244). Raised by `invalidWord`. Safe: the spec's own
  stop under the strict policy. -/
  | invalidInstruction (pc raw : Word)
  deriving DecidableEq, Repr

/-- The kind of a run-time error (R261). -/
def Fault.kind : Fault → ErrorKind
  | .fetchOutOfRange _ => .memoryFault
  | .dataOutOfRange _ _ _ _ => .memoryFault
  | .invalidInstruction _ _ => .invalidInstruction

/-- Why a step gives no meaning. -/
inductive Refusal where
  /-- An instruction exec has no meaning for yet. Raised by no arm now: every row of the opcode table has its
  meaning. Safe: it stops. -/
  | notModelled (mnemonic : String)
  deriving DecidableEq, Repr

/-- A record of the execution history (10_state.md R46: "at least (pc at fetch, raw word, decoded instruction)";
DESIGN CHOICE, log 17). -/
structure HistoryRecord where
  pc : Word
  word : Word
  instr : Instr
  deriving DecidableEq, Repr

/-- The complete state of CORE (10_state.md R20), with the session's configuration beside it (log 1). -/
structure State where
  /-- The configuration: constant over a session, changed by no step (R20, R35). -/
  config : Config
  /-- `x[0..15]` (R22). -/
  regs : RegFile
  /-- The address of the instruction being executed, a word address of Instruction Memory (R26). -/
  pc : Word
  /-- `Z`, `N`, `V` (R29). -/
  flags : Flags
  /-- The halted flag (R32). -/
  halted : Bool
  /-- The cycle counter, unbounded (R33, D13; log 14). -/
  cycles : Nat
  /-- The instruction counter, unbounded (R34, D13; log 14). -/
  instret : Nat
  /-- Instruction Memory (R36). -/
  imem : Memory
  /-- The recorded length of the loaded program, read by no rule of the core (R36). -/
  progLen : Nat
  /-- A load_program has succeeded since the last reset. The model's own field, with which a load outside the launch
  order is refused (20_memory.md R64, 70_reset_and_hazards.md R303, 93_implementation_defined.md U15; log 18). -/
  loaded : Bool
  /-- Data Memory by internal zero-based index (R37). -/
  dmem : Memory
  /-- The execution-history ring buffer, oldest first, at most 20 records (R46). -/
  history : List HistoryRecord
  /-- The diagnostic log, oldest first, at most `LOG_BOUND` records (R47). -/
  log : List Fault
  /-- Sticky: some error has been raised since reset (60_exceptions.md R268). -/
  errorSeen : Bool
  deriving DecidableEq, Repr

/-- The state at creation of a session (70_reset_and_hazards.md R301, 10_state.md R55). The zeros other than the
registers' are the spec's decision D9 (log 3). -/
def State.create (c : Config) : State :=
  { config := c
    regs := Vector.replicate 16 0
    pc := 0
    flags := { z := false, n := false, v := false }
    halted := false
    cycles := 0
    instret := 0
    imem := []
    progLen := 0
    loaded := false
    dmem := []
    history := []
    log := []
    errorSeen := false }

/-- The machine right after reset, with no program loaded, under the reference configuration (R55, R301; log 2, 3). -/
def State.reset : State := State.create Config.reference

end Sys2Proof.Machine
end

