-- ==== Sys2Proof/Machine/Ops.lean ====
section
/-! DEFINITION. The named operations over registers, memories, counters and buffers, raising an error, and the
instruction fetch (00_scope.md R13; 10_state.md; 20_memory.md; 60_exceptions.md). -/

namespace Sys2Proof.Machine

/-- What a step or a meaning answers. -/
abbrev Result := Host.Outcome State Fault Refusal

/-- The state under a `next` changed by `f`; a stop stays as it is. -/
def Result.mapNext (f : State → State) : Result → Result
  | .next s => .next (f s)
  | .fault e => .fault e
  | .refused e => .refused e

/-! ### Register File (10_state.md R22, R24, R25) -/

/-- `read(i)`: register 0 always reads 0 (R22, R24). -/
def RegFile.read (r : RegFile) (i : RegIdx) : Word := if i = 0 then 0 else r[i.val]

/-- `write(i, v)`: false and no change for register 0, which is no error (R24, R25). -/
def RegFile.write (r : RegFile) (i : RegIdx) (v : Word) : Bool × RegFile :=
  if i = 0 then (false, r) else (true, r.set i.val v)

/-- `reset_all()`: zeroes every register (R24). -/
def RegFile.resetAll (_ : RegFile) : RegFile := Vector.replicate 16 0

/-- `x[i]` (00_scope.md R13). -/
def State.readReg (s : State) (i : RegIdx) : Word := s.regs.read i

/-- `x[i] <- v`: for register 0 it changes nothing and raises nothing (00_scope.md R13, 10_state.md R25). -/
def State.writeReg (s : State) (i : RegIdx) (v : Word) : State := { s with regs := (s.regs.write i v).2 }

/-! ### The other registers and the counters -/

/-- `pc <- t`. -/
def State.setPc (s : State) (t : Word) : State := { s with pc := t }

/-- The ALU's flag write (10_state.md R29). -/
def State.setFlags (s : State) (f : Flags) : State := { s with flags := f }

/-- `halted <- 1` (10_state.md R32). -/
def State.setHalted (s : State) : State := { s with halted := true }

/-- `cycles <- cycles + 1` (10_state.md R33). -/
def State.countCycle (s : State) : State := { s with cycles := s.cycles + 1 }

/-- `instret <- instret + 1` (10_state.md R34). -/
def State.countInstr (s : State) : State := { s with instret := s.instret + 1 }

/-- `pc + 1` reduced modulo 2^16 (10_state.md R28, D8; log 10). -/
def nextPc (pc : Word) : Word := mask16 (pc.toNat + 1)

/-- Stage 5 where no branch or jump has set `pc` and the mode is not halt (40_core_cycle.md R151). -/
def State.advance (s : State) : State := s.setPc (nextPc s.pc)

/-- Stage 6 of a validly decoded instruction: both counters (40_core_cycle.md R151). -/
def State.retire (s : State) : State := s.countCycle.countInstr

/-! ### Memories (20_memory.md) -/

/-- The cell at `a`; an unlisted one reads 0. -/
def Memory.read : Memory → Nat → Word
  | [], _ => Memory.unlisted
  | (k, v) :: m, a => if a = k then v else Memory.read m a

/-- The memory with the cell at `a` set to `v`, in canonical form. -/
def Memory.write : Memory → Nat → Word → Memory
  | [], a, v => if v = Memory.unlisted then [] else [(a, v)]
  | (k, w) :: m, a, v =>
    if a < k then (if v = Memory.unlisted then (k, w) :: m else (a, v) :: (k, w) :: m)
    else if a = k then (if v = Memory.unlisted then m else (a, v) :: m)
    else (k, w) :: Memory.write m a v

/-- `words` written from address `a` on. -/
def Memory.writeAll : Memory → Nat → List Word → Memory
  | m, _, [] => m
  | m, a, w :: ws => Memory.writeAll (Memory.write m a w) (a + 1) ws

/-- A logical address of the Data Memory block: `DM_BASE ≤ L < DM_BASE + DM_SIZE` (20_memory.md R65). -/
def logicalInRange (c : Config) (l : Nat) : Bool := decide (c.dmBase ≤ l ∧ l < c.dmBase + c.dmSize)

/-- The internal zero-based index of a logical address (R65). -/
def internalIndex (c : Config) (l : Nat) : Nat := l - c.dmBase

/-- The core's translation `L = DM_BASE + ea`, with no wrap (20_memory.md R66, D5; log 11). -/
def logicalAddress (c : Config) (ea : Word) : Nat := c.dmBase + ea.toNat

/-- The block's `read_word(L)`: no word out of range, which is a MemoryFault (R65). -/
def readWord (c : Config) (m : Memory) (l : Nat) : Option Word :=
  if logicalInRange c l then some (m.read (internalIndex c l)) else none

/-- The block's `write_word(L, v)`: no new memory out of range, which is a MemoryFault (R65). -/
def writeWord (c : Config) (m : Memory) (l : Nat) (v : Word) : Option Memory :=
  if logicalInRange c l then some (m.write (internalIndex c l) v) else none

/-- The Data Memory replaced. -/
def State.setDmem (s : State) (m : Memory) : State := { s with dmem := m }

/-! ### Diagnostic buffers (10_state.md R46, R47) -/

/-- `x` appended to a buffer of capacity `bound`, the oldest entries overwritten: the last `bound` entries stay. -/
def pushBounded {α : Type} (bound : Nat) (xs : List α) (x : α) : List α :=
  ((xs ++ [x]).reverse.take bound).reverse

/-- The history's bound (10_state.md R46, 00_scope.md R8). -/
def historyBound : Nat := 20

/-- One history record appended (R46). -/
def State.pushHistory (s : State) (r : HistoryRecord) : State :=
  { s with history := pushBounded historyBound s.history r }

/-- One diagnostic-log record appended and the sticky `error_seen` set (R47, 60_exceptions.md R268). -/
def State.logError (s : State) (e : Fault) : State :=
  { s with log := pushBounded s.config.logBound s.log e, errorSeen := true }

/-! ### Raising an error: the machine's only exception mechanism (60_exceptions.md R262, R263, R267) -/

/-- `raise K(info)` (00_scope.md R13). Graceful: the error is logged and the instruction goes on as `k`. Strict: the
step ends with the fault, and the state before the call stands (D11; log 12). Control goes nowhere, nothing is saved
and there is nothing to return to (R267, R269). -/
def raise (e : Fault) (s : State) (k : State → Result) : Result :=
  if s.config.strict then .fault e else k (s.logError e)

/-! ### Stage 1, the fetch (20_memory.md R62, R63; 40_core_cycle.md R146) -/

/-- `IFetch(pc)`: the word there; out of range a MemoryFault, and under the graceful policy the word `0x0000`, which
is then executed like any other (R63, D24; log 15). The test is against `IM_SIZE`, not the program's length. -/
def fetch (s : State) (k : Word → State → Result) : Result :=
  if s.pc.toNat < s.config.imSize then k (s.imem.read s.pc.toNat) s
  else raise (.fetchOutOfRange s.pc) s (k 0)

end Sys2Proof.Machine
end

