-- ==== Sys2Proof/Machine/Operands.lean ====
section
/-! DEFINITION. Operand forms: the extension of immediate fields, the one addressing mode and the PC-relative target
(00_scope.md R12; 30_encoding.md R93 to R96; 42_load_store.md R200; 43_branch_jump.md R221). -/

namespace Sys2Proof.Machine

/-- `zext_16(f)`: the field as an unsigned number (R12). -/
def zext16 {n : Nat} (f : BitVec n) : Word := mask16 f.toNat

/-- `s(f)`: `f` if `f < 2^(n-1)`, else `f − 2^n` (R12, R95, R96). -/
def signedValue {n : Nat} (f : BitVec n) : Int := if f.toNat < 2 ^ (n - 1) then f.toNat else f.toNat - 2 ^ n

/-- `sext_16(f)`: the 16-bit two's-complement encoding of `s(f)` (R12). -/
def sext16 {n : Nat} (f : BitVec n) : Word := mask16 (signedValue f)

/-- `ea = mask16(x[rs1] + zext_16(off))`, by the address adder and not the ALU (R200, D7; log 9). -/
def effectiveAddress (s : State) (rs1 : RegIdx) (off : BitVec 4) : Word :=
  mask16 ((s.readReg rs1).toNat + (zext16 off).toNat)

/-- `mask16(pc + s(offset))` from the address of the branch or jump itself, no +1 (R221, D8; log 10). -/
def branchTarget {n : Nat} (pc : Word) (off : BitVec n) : Word := mask16 (pc.toNat + signedValue off)

end Sys2Proof.Machine
end

