-- ==== Sys2Proof/Machine/Flags.lean ====
section
/-! DEFINITION. The ALU: the results and flags of its operations, and its call by code (41_alu.md R170 to R174). -/

namespace Sys2Proof.Machine

/-- The masked result (R172). -/
def aluResult (op : AluOp) (a b : Word) : Word :=
  match op with
  | .add => mask16 (a.toNat + b.toNat)
  | .sub => mask16 ((a.toNat : Int) - b.toNat)
  | .and => a &&& b
  | .or => a ||| b
  | .xor => a ^^^ b
  | .eq => if a = b then 1 else 0
  | .ne => if a = b then 0 else 1

/-- `V`: an ADD whose unmasked sum exceeds 0xFFFF, else 0 (R172; 0 off ADD is the spec's decision D6, log 8). -/
def aluOverflow (op : AluOp) (a b : Word) : Bool :=
  match op with
  | .add => decide (a.toNat + b.toNat > 0xFFFF)
  | .sub | .and | .or | .xor | .eq | .ne => false

/-- The flags every call writes: `Z` iff the result is 0, `N` its bit 15, `V` (R172). -/
def aluFlags (op : AluOp) (a b : Word) : Flags :=
  { z := decide (aluResult op a b = 0), n := (aluResult op a b).getLsbD 15, v := aluOverflow op a b }

/-- `execute(a, b, code)` under an ALU-code map: result and flags, nothing for a code that stands for no operation
(R170, R171, R173, D15; log 21). -/
def aluExecute (m : AluMap) (a b : Word) (c : BitVec 3) : Option (Word × Flags) :=
  (m.opOf c).map fun op => (aluResult op a b, aluFlags op a b)

end Sys2Proof.Machine
end

