-- ==== Sys2Proof/Machine/Arith.lean ====
section
/-! DEFINITION. ADD, SUB, AND, OR, XOR, ADDI (41_alu.md R175 to R180). -/

namespace Sys2Proof.Machine

/-- `r <- ALU(a, b, op); x[rd] <- r; pc <- pc + 1`, the flags with it: the shape of all six. `a` and `b` are values of
the state before the step (40_core_cycle.md R150). -/
def arith (op : AluOp) (rd : RegIdx) (a b : Word) (s : State) : Result :=
  .next (((s.setFlags (aluFlags op a b)).writeReg rd (aluResult op a b)).advance.retire)

/-- ADD rd, rs1, rs2 (R175). -/
def execAdd (rd rs1 rs2 : RegIdx) (s : State) : Result := arith .add rd (s.readReg rs1) (s.readReg rs2) s

/-- SUB rd, rs1, rs2 (R176). -/
def execSub (rd rs1 rs2 : RegIdx) (s : State) : Result := arith .sub rd (s.readReg rs1) (s.readReg rs2) s

/-- AND rd, rs1, rs2 (R177). -/
def execAnd (rd rs1 rs2 : RegIdx) (s : State) : Result := arith .and rd (s.readReg rs1) (s.readReg rs2) s

/-- OR rd, rs1, rs2 (R178). -/
def execOr (rd rs1 rs2 : RegIdx) (s : State) : Result := arith .or rd (s.readReg rs1) (s.readReg rs2) s

/-- XOR rd, rs1, rs2 (R179). -/
def execXor (rd rs1 rs2 : RegIdx) (s : State) : Result := arith .xor rd (s.readReg rs1) (s.readReg rs2) s

/-- ADDI rd, rs1, imm: the immediate unsigned, 0 to 15 (R180, 30_encoding.md R93). -/
def execAddi (rd rs1 : RegIdx) (imm : BitVec 4) (s : State) : Result := arith .add rd (s.readReg rs1) (zext16 imm) s

end Sys2Proof.Machine
end

