-- ==== Sys2Proof/Machine/Branch.lean ====
section
/-! DEFINITION. BEQ, BNE, JAL (43_branch_jump.md R221 to R224). -/

namespace Sys2Proof.Machine

/-- The ALU compares with EQ or NE and writes the flags; a result of 1 sets `pc` to the target, else `pc` advances
(R222, R223). -/
def branch (op : AluOp) (rs1 rs2 : RegIdx) (off : BitVec 4) (s : State) : Result :=
  let a := s.readReg rs1
  let b := s.readReg rs2
  let t := s.setFlags (aluFlags op a b)
  if aluResult op a b = 1 then .next ((t.setPc (branchTarget s.pc off)).retire) else .next (t.advance.retire)

/-- BEQ rs1, rs2, off (R222). -/
def execBeq (rs1 rs2 : RegIdx) (off : BitVec 4) (s : State) : Result := branch .eq rs1 rs2 off s

/-- BNE rs1, rs2, off (R223). -/
def execBne (rs1 rs2 : RegIdx) (off : BitVec 4) (s : State) : Result := branch .ne rs1 rs2 off s

/-- JAL rd, off: the link and the target both from the `pc` of the JAL itself (R224). -/
def execJal (rd : RegIdx) (off : BitVec 8) (s : State) : Result :=
  .next (((s.writeReg rd (nextPc s.pc)).setPc (branchTarget s.pc off)).retire)

end Sys2Proof.Machine
end

