-- ==== Sys2Proof/Machine/LoadStore.lean ====
section
/-! DEFINITION. LW and SW, and the core's data accesses (20_memory.md R66 to R68; 42_load_store.md R200 to R202). -/

namespace Sys2Proof.Machine

/-- `MemRead(ea, 1)` for instruction `i`: the word at `DM_BASE + ea`; out of range a MemoryFault, and under the
graceful policy 0 (R67). -/
def loadWord (i : Instr) (ea : Word) (s : State) (k : Word → State → Result) : Result :=
  match readWord s.config s.dmem (logicalAddress s.config ea) with
  | some v => k v s
  | none => raise (.dataOutOfRange .read s.pc i ea) s (k 0)

/-- `MemWrite(ea, 1, v)` for instruction `i`: out of range a MemoryFault, and under the graceful policy no word
changes (R68). -/
def storeWord (i : Instr) (ea v : Word) (s : State) (k : State → Result) : Result :=
  match writeWord s.config s.dmem (logicalAddress s.config ea) v with
  | some m => k (s.setDmem m)
  | none => raise (.dataOutOfRange .write s.pc i ea) s k

/-- LW rd, imm(rs1) (R201). -/
def execLw (rd rs1 : RegIdx) (imm : BitVec 4) (s : State) : Result :=
  loadWord (.lw rd rs1 imm) (effectiveAddress s rs1 imm) s fun v t => .next ((t.writeReg rd v).advance.retire)

/-- SW rs2, off(rs1) (R202). -/
def execSw (rs2 rs1 : RegIdx) (off : BitVec 4) (s : State) : Result :=
  storeWord (.sw rs2 rs1 off) (effectiveAddress s rs1 off) (s.readReg rs2) s fun t => .next (t.advance.retire)

end Sys2Proof.Machine
end

