-- ==== Sys2Proof/Machine/Special.lean ====
section
/-! DEFINITION. NOP, HALT, and the words with a reserved opcode (44_special_invalid.md R240 to R246). -/

namespace Sys2Proof.Machine

/-- NOP (R241). -/
def execNop (s : State) : Result := .next (s.advance.retire)

/-- HALT: `pc` stays on the HALT word (R242). -/
def execHalt (s : State) : Result := .next (s.setHalted.retire)

/-- An Invalid word: raise InvalidInstruction(pc, w); under the graceful policy `pc` advances and `cycles` rises, and
`instret` does not (R244). -/
def invalidWord (raw : Word) (s : State) : Result :=
  raise (.invalidInstruction s.pc raw) s fun t => .next (t.advance.countCycle)

/-- The reserved opcode 0xD (R99, R244). -/
def execReservedD (raw : Word) (s : State) : Result := invalidWord raw s

/-- The reserved opcode 0xE (R99, R244). -/
def execReservedE (raw : Word) (s : State) : Result := invalidWord raw s

/-- The reserved opcode 0xF (R99, R244). -/
def execReservedF (raw : Word) (s : State) : Result := invalidWord raw s

end Sys2Proof.Machine
end

