-- ==== Sys2Proof/Machine/Step.lean ====
section
/-! DEFINITION. One step of the core (40_core_cycle.md R145 to R153), and the placing of a word where it fetches. -/

namespace Sys2Proof.Machine

/-- Stages 2 to 6 on the fetched word: decode, execute, and the history record of the completed step with the `pc` at
the fetch (R147 to R151, R153). -/
def runWord (w : Word) (s : State) : Host.Outcome State Fault Refusal :=
  let d := decodeRecord s.config.opMap w
  Result.mapNext (fun t => t.pushHistory { pc := s.pc, word := d.raw, instr := d.instr }) (exec d.instr s)

/-- `step()`: a halted core changes nothing (R152, D10; log 13); else fetch and run. A fault under the strict policy
leaves the state before the call (R145, R263). -/
def step (s : State) : Host.Outcome State Fault Refusal :=
  if s.halted then .next s else fetch s runWord

/-- The instruction with bits `w` stored at the address the next step fetches from, on a core that is not halted (log 28).
It stands for the host's load. -/
def State.withFetchWord (s : State) (nbits w : Nat) : State :=
  { s with imem := s.imem.write s.pc.toNat (BitVec.ofNat 16 (w % 2 ^ nbits)), halted := false }

end Sys2Proof.Machine
end

