-- ==== Sys2Proof/Machine/HostOps.lean ====
section
/-! DEFINITION. The host's operations on a session: reset, load_program, run and the accessors (10_state.md R24, R51;
20_memory.md R64, R65, R69; 40_core_cycle.md R154 to R156; 70_reset_and_hazards.md R300, R303). The host acts only
between steps (00_scope.md R3), so these are plain functions of the state and no part of `step`. -/

namespace Sys2Proof.Machine

/-- `reset()`: every element to its reset value; Instruction Memory, `prog_len` and the configuration stay (R300, R55,
D9; log 3). -/
def State.hostReset (s : State) : State :=
  { State.create s.config with imem := s.imem, progLen := s.progLen }

/-- Why load_program loads nothing. -/
inductive LoadProblem where
  /-- It returns false; the kind of the error (R64). -/
  | failed (kind : ErrorKind)
  /-- The call stands outside the launch order: the model has no move for it (R64, R303, U15; log 18). Safe. -/
  | noMove
  deriving DecidableEq, Repr

/-- The launch order still allows a load: no step has completed and no load has succeeded since the last reset (20_memory.md
R64, 70_reset_and_hazards.md R303, 93_implementation_defined.md U15; log 18). -/
def State.loadOpen (s : State) : Bool := decide (s.cycles = 0) && !s.halted && !s.loaded

/-- `load_program(words, start)`: refused outside the launch order; else it fails, with kind CapacityExceeded and no
change, iff `start ≥ IM_SIZE` or `start + n > IM_SIZE`; else every cell is cleared, the words are written from `start` on
and the length recorded (R64, D19; log 18). -/
def loadProgram (words : List Word) (start : Nat) (s : State) : Except LoadProblem State :=
  if s.loadOpen = false then .error .noMove
  else if start ≥ s.config.imSize ∨ start + words.length > s.config.imSize then .error (.failed .capacityExceeded)
  else .ok { s with imem := Memory.writeAll [] start words, progLen := words.length, loaded := true }

/-- The Boolean `load_program` returns and the state after it (R64); nothing where the call has no move. -/
def loadProgramBool (words : List Word) (start : Nat) (s : State) : Option (Bool × State) :=
  match loadProgram words start s with
  | .ok t => some (true, t)
  | .error (.failed _) => some (false, s)
  | .error .noMove => none

/-- The launch state: reset, then the program loaded at address 0 (R303). -/
def launch (words : List Word) (s : State) : Except LoadProblem State := loadProgram words 0 s.hostReset

/-- The Boolean `step()` returns: it executed an instruction (R156, D18; log 20). -/
def stepBool (s : State) : Bool :=
  !s.halted && (match step s with
    | .next _ => true
    | .fault _ => false
    | .refused _ => false)

/-- How a run ends for the host: `finished h s` returns the Boolean `h`; a strict-policy fault is passed on with the
state it left (R155). -/
inductive RunResult where
  | finished (haltedNormally : Bool) (s : State)
  | fault (e : Fault) (s : State)
  | refused (e : Refusal) (s : State)
  deriving DecidableEq, Repr

/-- `run(max_cycles)`: steps until halted or the budget of this call is spent (R155, D22; log 19). -/
def run : Nat → State → RunResult
  | 0, s => .finished s.halted s
  | n + 1, s =>
    if s.halted then .finished true s
    else match step s with
      | .next t => run n t
      | .fault e => .fault e s
      | .refused e => .refused e s

/-- `run()` with the configured default budget (R155). -/
def runDefault (s : State) : RunResult := run s.config.maxCyclesDefault s

/-- The end of a run is the state `halted = 1` and no other (R154). -/
def State.ended (s : State) : Bool := s.halted

/-! ### Host access to registers, by number or by name (10_state.md R23, R24) -/

/-- The ABI aliases in the order of R23, index 0 first (the spec's decision D16; log 22). -/
def abiNames : List (List Char) :=
  ["zero".toList, "ra".toList, "sp".toList, "gp".toList, "tp".toList, "t0".toList, "t1".toList, "t2".toList,
   "s0".toList, "s1".toList, "a0".toList, "a1".toList, "a2".toList, "a3".toList, "a4".toList, "a7".toList]

/-- The plain names `x0` .. `x15` (R23). -/
def plainNames : List (List Char) :=
  ["x0".toList, "x1".toList, "x2".toList, "x3".toList, "x4".toList, "x5".toList, "x6".toList, "x7".toList,
   "x8".toList, "x9".toList, "x10".toList, "x11".toList, "x12".toList, "x13".toList, "x14".toList, "x15".toList]

/-- The register a plain or ABI name stands for. DESIGN CHOICE (log 32): names are compared letter for letter, so that the
host's `X1` or `RA` is an unknown name (reads 0, fails to write, reported); 91_not_in_source.md N13 leaves upper-case
names unsaid, and 93_implementation_defined.md U16 rules on assembly sources only. -/
def regOfName (name : List Char) : Option RegIdx :=
  let i := plainNames.idxOf name
  let j := abiNames.idxOf name
  if h : i < 16 then some ⟨i, h⟩ else if h : j < 16 then some ⟨j, h⟩ else none

/-- What the host may present to the Register File (R24). -/
inductive RegRef where
  | index (i : Nat)
  | name (n : List Char)
  deriving DecidableEq, Repr

/-- The register it names, if any. -/
def RegRef.resolve : RegRef → Option RegIdx
  | .index i => if h : i < 16 then some ⟨i, h⟩ else none
  | .name n => regOfName n

/-- The host's `read`: the value, and whether the access is reported; an invalid index or alias reads 0 and is
reported (R24; log 26). -/
def RegFile.hostRead (r : RegFile) (ref : RegRef) : Word × Bool :=
  match ref.resolve with
  | some i => (r.read i, false)
  | none => (0, true)

/-- The host's `write`: its Boolean, the registers after it, and whether the access is reported; an invalid index or
alias fails and is reported, a write to register 0 fails and is not (R24, R25; log 26). -/
def RegFile.hostWrite (r : RegFile) (ref : RegRef) (v : Word) : (Bool × RegFile) × Bool :=
  match ref.resolve with
  | some i => (r.write i v, false)
  | none => ((false, r), true)

/-! ### Host access to the Data Memory block (20_memory.md R65, R69) -/

/-- The block's `read_word(L)` under the session's policy (R65). -/
def hostReadWord (c : Config) (m : Memory) (l : Nat) : Except ErrorKind Word :=
  match readWord c m l with
  | some v => .ok v
  | none => if c.strict then .error .memoryFault else .ok 0

/-- The block's `write_word(L, v)` under the session's policy: its Boolean and the memory after it (R65). -/
def hostWriteWord (c : Config) (m : Memory) (l : Nat) (v : Word) : Except ErrorKind (Bool × Memory) :=
  match writeWord c m l v with
  | some m' => .ok (true, m')
  | none => if c.strict then .error .memoryFault else .ok (false, m)

/-- The read-back at the end of a run: the whole array `DM[0 .. DM_SIZE−1]` (R69). -/
def dataImage (s : State) : List Word := (List.range s.config.dmSize).map s.dmem.read

/-- `find_non_zero()`: the cells that are not 0. DESIGN CHOICE (log 25): with zero-based addresses (R69, N11b). -/
def findNonZero (s : State) : List WordCell := s.dmem

/-! ### The serialised program file (20_memory.md R70, 30_encoding.md R117) -/

/-- Two bytes a word, little-endian, no header (R70). -/
def serialise (words : List Word) : List Byte :=
  words.flatMap fun w => [w.extractLsb' 0 8, w.extractLsb' 8 8]

/-- The words of a program file; a file of an odd number of bytes is none. -/
def deserialise : List Byte → Option (List Word)
  | [] => some []
  | [_] => none
  | lo :: hi :: rest => (deserialise rest).map fun ws => ((hi ++ lo : BitVec 16) : Word) :: ws

end Sys2Proof.Machine
end

