-- ==== Sys2Proof/Machine/Assembler.lean ====
section
/-! DEFINITION. The two-pass assembler, toolchain and no part of the machine (00_scope.md R6; 30_encoding.md R110 to
R118; 10_state.md R23). The source text is a list of characters. -/

namespace Sys2Proof.Machine

/-! ### Lines and tokens (R110 to R112) -/

/-- White space inside a line. -/
def isBlank (c : Char) : Bool := c == ' ' || c == '\t' || c == '\r'

/-- Operands are comma- or whitespace-separated (R110). -/
def isSeparator (c : Char) : Bool := isBlank c || c == ','

/-- The pieces between the characters that satisfy `p`. -/
def splitAll (p : Char → Bool) : List Char → List (List Char)
  | [] => [[]]
  | c :: cs =>
    if p c then [] :: splitAll p cs
    else match splitAll p cs with
      | [] => [[c]]
      | t :: ts => (c :: t) :: ts

/-- The tokens of an instruction (R112). -/
def tokens (cs : List Char) : List (List Char) := (splitAll isSeparator cs).filter (fun t => !t.isEmpty)

/-- `#` starts a comment to the end of the line (R110). -/
def stripComment (cs : List Char) : List Char := cs.takeWhile (fun c => c != '#')

/-- Without surrounding white space. -/
def trim (cs : List Char) : List Char := ((cs.dropWhile isBlank).reverse.dropWhile isBlank).reverse

/-- Mnemonics are case-insensitive (R110). -/
def lower (cs : List Char) : List Char := cs.map Char.toLower

/-- Why a source is refused whole (93_implementation_defined.md U16; log 24). -/
inductive AsmRefusal where
  /-- A label defined twice: the spec says neither which wins nor that it fails (R111, N12). Raised by `scan`. Safe. -/
  | duplicateLabel (label : List Char)
  /-- A register written in upper case: the spec leaves it unsaid (N13, U16). Raised by `parseReg`. Safe. -/
  | upperCaseRegister (name : List Char)
  deriving DecidableEq, Repr

/-- Why a line gives no word. -/
inductive LineProblem where
  /-- InvalidOperand: a per-line failure (R116). -/
  | invalidOperand
  /-- The whole source is refused (U16). -/
  | refuse (r : AsmRefusal)
  deriving DecidableEq, Repr

/-- A line for pass 2, with its source line number and the address pass 1 gave it: one that holds an instruction, or one
whose label is bad and which is there to fail (R116). -/
structure PlacedLine where
  number : Nat
  address : Nat
  text : List Char
  badLabel : Bool
  deriving DecidableEq, Repr

/-- The Label Table: each label with its address (R111). -/
abbrev LabelTable := List (List Char × Nat)

/-! ### Pass 1 (R111) -/

/-- The label of a line, if it has the terminator `:`, and the rest; both trimmed (R110). -/
def splitLabel (cs : List Char) : Option (List Char) × List Char :=
  if cs.contains ':' then
    (some (trim (cs.takeWhile (fun c => c != ':'))), trim ((cs.dropWhile (fun c => c != ':')).drop 1))
  else (none, trim cs)

/-- A label usable as a token. DESIGN CHOICE (log 24): the spec gives no label syntax (91_not_in_source.md N12), and the
model takes a label that is empty or holds a separator as a bad label, an InvalidOperand of its line (R116). -/
def labelUsable (l : List Char) : Bool := !l.isEmpty && !l.any isSeparator

/-- A source line without its comment: its label, if it has one, and the rest (R110). -/
def lineParts (line : List Char) : Option (List Char) × List Char := splitLabel (stripComment line)

/-- The label the line defines, if it has a usable one (R111). -/
def lineLabel (line : List Char) : Option (List Char) := (lineParts line).1.filter labelUsable

/-- The line has a bad label (R116). -/
def lineLabelBad (line : List Char) : Bool := (lineParts line).1.any (fun l => !labelUsable l)

/-- The line holds an instruction, alone or after a label, and so takes an address (R111). -/
def lineHoldsInstr (line : List Char) : Bool := !(lineParts line).2.isEmpty

/-- What pass 2 gets of the line. -/
def placeLine (line : List Char) (number addr : Nat) : PlacedLine :=
  { number := number, address := addr, text := (lineParts line).2, badLabel := lineLabelBad line }

/-- Pass 1 over the lines from line `number` and address `addr` on, with the labels recorded so far: a label gets the
current address, and a non-empty instruction takes it and advances the counter by one (R111). A bad label is recorded
nowhere and its line goes to pass 2 to fail; an instruction on it keeps its address (R116). -/
def scan : List (List Char) → Nat → Nat → LabelTable → Except AsmRefusal (LabelTable × List PlacedLine)
  | [], _, _, labels => .ok (labels, [])
  | line :: rest, number, addr, labels =>
    let recorded : Except AsmRefusal LabelTable :=
      match lineLabel line with
      | none => .ok labels
      | some l => if (labels.lookup l).isSome then .error (.duplicateLabel l) else .ok (labels ++ [(l, addr)])
    match recorded with
    | .error r => .error r
    | .ok labels' =>
      match scan rest (number + 1) (if lineHoldsInstr line then addr + 1 else addr) labels' with
      | .error r => .error r
      | .ok (final, lines) =>
        if lineHoldsInstr line || lineLabelBad line then .ok (final, placeLine line number addr :: lines)
        else .ok (final, lines)

/-! ### Operands (R112, R113, R115) -/

/-- The value of a digit in base 16; a decimal number uses those below 10. -/
def digitValue (c : Char) : Option Nat :=
  let k := "0123456789abcdef".toList.idxOf c.toLower
  if k < 16 then some k else none

/-- The number the digits stand for in a base, from the value of those before them. -/
def parseDigits (base : Nat) : List Char → Nat → Option Nat
  | [], acc => some acc
  | c :: cs, acc =>
    match digitValue c with
    | some d => if d < base then parseDigits base cs (acc * base + d) else none
    | none => none

/-- A decimal or `0x`-prefixed hexadecimal number (R112, R115). -/
def parseNumber : List Char → Option Nat
  | [] => none
  | ['0', 'x'] => none
  | '0' :: 'x' :: ds => parseDigits 16 ds 0
  | ds => parseDigits 10 ds 0

/-- A number with an optional minus sign: a numeric branch or jump target is the signed offset itself (R115, D17). -/
def parseSigned : List Char → Option Int
  | '-' :: ds => (parseNumber ds).map fun n => -(n : Int)
  | ds => (parseNumber ds).map fun n => (n : Int)

/-- A register by its plain or ABI name, lower case (R112, 10_state.md R23; U16). -/
def parseReg (t : List Char) : Except LineProblem RegIdx :=
  match regOfName t with
  | some i => .ok i
  | none =>
    if (regOfName (lower t)).isSome then .error (.refuse (.upperCaseRegister t)) else .error .invalidOperand

/-- An I-format immediate or an S or load offset: 0 to 15, else the line fails (R115, D17; log 23). -/
def parseImm4 (t : List Char) : Except LineProblem (BitVec 4) :=
  match parseNumber t with
  | some n => if n < 16 then .ok (BitVec.ofNat 4 n) else .error .invalidOperand
  | none => .error .invalidOperand

/-- A memory operand `offset(reg)` (R112). DESIGN CHOICE (log 34): the register is read before the offset. -/
def parseMem (t : List Char) : Except LineProblem (BitVec 4 × RegIdx) :=
  let off := t.takeWhile (fun c => c != '(')
  match t.dropWhile (fun c => c != '(') with
  | '(' :: rest =>
    if rest.getLast? = some ')' then do
      let r ← parseReg rest.dropLast
      let o ← parseImm4 off
      .ok (o, r)
    else .error .invalidOperand
  | _ => .error .invalidOperand

/-- The field value for a label: `label_address − current_address` masked to the field width, silently (R114). -/
def labelField (n : Nat) (labelAddress current : Nat) : BitVec n := BitVec.ofInt n ((labelAddress : Int) - current)

/-- A branch or jump target: a numeric offset that fits the field (R115, D17; log 23), or a label (R114). DESIGN CHOICE
(log 33): labels are compared letter for letter, so that `Loop` and `loop` are two labels; the spec makes mnemonics
case-insensitive (R110) and says nothing of labels. -/
def parseTarget (n : Nat) (labels : LabelTable) (current : Nat) (t : List Char) : Except LineProblem (BitVec n) :=
  match parseSigned t with
  | some v =>
    if -(2 ^ (n - 1) : Int) ≤ v ∧ v < 2 ^ (n - 1) then .ok (BitVec.ofInt n v) else .error .invalidOperand
  | none =>
    match labels.lookup t with
    | some a => .ok (labelField n a current)
    | none => .error .invalidOperand

/-! ### The source line of an instruction (R113, D17) -/

/-- A decimal number below 1000. -/
def decimalChars (n : Nat) : List Char :=
  let digit (k : Nat) : Char := "0123456789".toList.getD (k % 10) '0'
  if n < 10 then [digit n]
  else if n < 100 then [digit (n / 10), digit n]
  else [digit (n / 100), digit (n / 10), digit n]

/-- A signed decimal number. -/
def signedChars (v : Int) : List Char := if v < 0 then '-' :: decimalChars (-v).toNat else decimalChars v.toNat

/-- `name a, b, c` -/
def line3 (name a b c : List Char) : List Char := name ++ ' ' :: a ++ ',' :: ' ' :: b ++ ',' :: ' ' :: c

/-- `name a, b` -/
def line2 (name a b : List Char) : List Char := name ++ ' ' :: a ++ ',' :: ' ' :: b

/-- `offset(reg)` -/
def memChars (off : BitVec 4) (reg : List Char) : List Char := decimalChars off.toNat ++ '(' :: reg ++ [')']

/-- The source line of an instruction with register names from a table (plain or ABI) and numeric operands in decimal; a
reserved row has none. The assembler reads it back: a term of the claims, with which R103's test property is said. -/
def sourceLine (names : List (List Char)) : Instr → List Char
  | .add rd rs1 rs2 => line3 "add".toList (names.getD rd.val []) (names.getD rs1.val []) (names.getD rs2.val [])
  | .sub rd rs1 rs2 => line3 "sub".toList (names.getD rd.val []) (names.getD rs1.val []) (names.getD rs2.val [])
  | .and rd rs1 rs2 => line3 "and".toList (names.getD rd.val []) (names.getD rs1.val []) (names.getD rs2.val [])
  | .or rd rs1 rs2 => line3 "or".toList (names.getD rd.val []) (names.getD rs1.val []) (names.getD rs2.val [])
  | .xor rd rs1 rs2 => line3 "xor".toList (names.getD rd.val []) (names.getD rs1.val []) (names.getD rs2.val [])
  | .addi rd rs1 imm =>
    line3 "addi".toList (names.getD rd.val []) (names.getD rs1.val []) (decimalChars imm.toNat)
  | .lw rd rs1 imm => line2 "lw".toList (names.getD rd.val []) (memChars imm (names.getD rs1.val []))
  | .sw rs2 rs1 off => line2 "sw".toList (names.getD rs2.val []) (memChars off (names.getD rs1.val []))
  | .beq rs1 rs2 off => line3 "beq".toList (names.getD rs1.val []) (names.getD rs2.val []) (signedChars off.toInt)
  | .bne rs1 rs2 off => line3 "bne".toList (names.getD rs1.val []) (names.getD rs2.val []) (signedChars off.toInt)
  | .jal rd off => line2 "jal".toList (names.getD rd.val []) (signedChars off.toInt)
  | .nop => "nop".toList
  | .halt => "halt".toList
  | .reservedD _ | .reservedE _ | .reservedF _ => []

/-! ### Pass 2 (R112 to R116) -/

/-- The mnemonic a lower-case name stands for; there are no pseudo-instructions and no directives (R118). -/
def mnemonicOfName (t : List Char) : Option Mnemonic :=
  [("add".toList, Mnemonic.add), ("sub".toList, .sub), ("and".toList, .and), ("or".toList, .or), ("xor".toList, .xor),
   ("addi".toList, .addi), ("lw".toList, .lw), ("sw".toList, .sw), ("beq".toList, .beq), ("bne".toList, .bne),
   ("jal".toList, .jal), ("nop".toList, .nop), ("halt".toList, .halt)].lookup t

/-- The three register operands of an R-format instruction. -/
def parseRegs3 (mk : RegIdx → RegIdx → RegIdx → Instr) (a b c : List Char) : Except LineProblem Instr := do
  let rd ← parseReg a
  let rs1 ← parseReg b
  let rs2 ← parseReg c
  .ok (mk rd rs1 rs2)

/-- The operands of BEQ and BNE: `rs1, rs2, target` (R113, D17). -/
def parseBranch (mk : RegIdx → RegIdx → BitVec 4 → Instr) (labels : LabelTable) (current : Nat)
    (a b c : List Char) : Except LineProblem Instr := do
  let rs1 ← parseReg a
  let rs2 ← parseReg b
  let off ← parseTarget 4 labels current c
  .ok (mk rs1 rs2 off)

/-- The instruction of a mnemonic and its operand tokens; a wrong operand count is an InvalidOperand (R113, R116). DESIGN
CHOICE (log 34): the operands are read from the left and the first error wins, so that an upper-case register refuses the
source only where nothing before it has failed the line: not after an unknown mnemonic, a wrong operand count or an earlier
bad operand. The base register of a memory operand is read before its offset. -/
def parseOperands (labels : LabelTable) (current : Nat) : Mnemonic → List (List Char) → Except LineProblem Instr
  | .add, [a, b, c] => parseRegs3 .add a b c
  | .sub, [a, b, c] => parseRegs3 .sub a b c
  | .and, [a, b, c] => parseRegs3 .and a b c
  | .or, [a, b, c] => parseRegs3 .or a b c
  | .xor, [a, b, c] => parseRegs3 .xor a b c
  | .addi, [a, b, c] => do
    let rd ← parseReg a
    let rs1 ← parseReg b
    let imm ← parseImm4 c
    .ok (.addi rd rs1 imm)
  | .lw, [a, b] => do
    let rd ← parseReg a
    let mem ← parseMem b
    .ok (.lw rd mem.2 mem.1)
  | .sw, [a, b] => do
    let rs2 ← parseReg a
    let mem ← parseMem b
    .ok (.sw rs2 mem.2 mem.1)
  | .beq, [a, b, c] => parseBranch .beq labels current a b c
  | .bne, [a, b, c] => parseBranch .bne labels current a b c
  | .jal, [a, b] => do
    let rd ← parseReg a
    let off ← parseTarget 8 labels current b
    .ok (.jal rd off)
  | .nop, [] => .ok .nop
  | .halt, [] => .ok .halt
  | _, _ => .error .invalidOperand

/-- One instruction line (R112): an unknown mnemonic, or one the opcode map has no opcode for, fails the line (R116). -/
def assembleTokens (m : OpMap) (labels : LabelTable) (current : Nat) : List (List Char) → Except LineProblem Instr
  | [] => .error .invalidOperand
  | name :: operands =>
    match mnemonicOfName (lower name) with
    | some k => if m.defines k then parseOperands labels current k operands else .error .invalidOperand
    | none => .error .invalidOperand

/-- The instruction a placed line gives, or why it gives none: a bad label fails the line (R116). -/
def encodeLine (m : OpMap) (labels : LabelTable) (l : PlacedLine) : Except LineProblem Instr :=
  match assembleTokens m labels l.address (tokens l.text) with
  | .ok i => if l.badLabel then .error .invalidOperand else .ok i
  | .error e => .error e

/-- Pass 2 over the placed lines: the words in order, and the lines that failed; a failing line contributes no word
(R112, R116). DESIGN CHOICE (log 34): of two lines that refuse the source, the first one's refusal is answered. -/
def encodeLines (m : OpMap) (labels : LabelTable) :
    List PlacedLine → Except AsmRefusal (List Word × List (Nat × ErrorKind))
  | [] => .ok ([], [])
  | l :: rest =>
    match encodeLine m labels l, encodeLines m labels rest with
    | .error (.refuse r), _ => .error r
    | .error .invalidOperand, .ok (ws, bad) => .ok (ws, (l.number, .invalidOperand) :: bad)
    | .ok i, .ok (ws, bad) => .ok (encode m i :: ws, bad)
    | _, .error r => .error r

/-- What the assembler gives: the words in order with the label table and the failing lines (R116, R117), or the
refusal of the whole source (U16). -/
inductive Assembly where
  | assembled (words : List Word) (labels : LabelTable) (failures : List (Nat × ErrorKind))
  | refused (r : AsmRefusal)
  deriving DecidableEq, Repr

/-- The assembler: pass 1 from line 1 and address 0, then pass 2 (R111, R112, R117). DESIGN CHOICE
(log 34): a refusal of pass 1 is answered before any of pass 2. -/
def assemble (m : OpMap) (source : List Char) : Assembly :=
  match scan (splitAll (fun c => c == '\n') source) 1 0 [] with
  | .error r => .refused r
  | .ok (labels, lines) =>
    match encodeLines m labels lines with
    | .error r => .refused r
    | .ok (ws, bad) => .assembled ws labels bad

end Sys2Proof.Machine
end

