-- ==== Sys2Proof/Machine/Control.lean ====
section
/-! DEFINITION. The Control Unit: the static map from mnemonic to control-signal bundle (40_core_cycle.md R140 to R143),
and the data path its bundle drives (R148 to R151). -/

namespace Sys2Proof.Machine

/-- Where the first operand comes from (R141). -/
inductive SrcA where
  | rs1 | none
  deriving DecidableEq, Repr

/-- Where the second operand comes from (R141). -/
inductive SrcB where
  | rs2 | imm | none
  deriving DecidableEq, Repr

/-- What a register write stores (R141). -/
inductive RegSrc where
  | alu | mem | pcPlus1 | none
  deriving DecidableEq, Repr

/-- The PC-update mode (R141). -/
inductive PcUpdate where
  | increment | branch | jump | halt
  deriving DecidableEq, Repr

/-- The control-signal bundle, in the field names of R141 (the spec's own names, N1a). -/
structure Bundle where
  aluOp : Option AluOp
  srcA : SrcA
  srcB : SrcB
  regWrite : Bool
  regSrc : RegSrc
  memRead : Bool
  memWrite : Bool
  branch : Bool
  jump : Bool
  pcUpdate : PcUpdate
  deriving DecidableEq, Repr

/-- The row of an R-format ALU instruction (R142). -/
def aluBundle (op : AluOp) (b : SrcB) : Bundle :=
  { aluOp := some op, srcA := .rs1, srcB := b, regWrite := true, regSrc := .alu, memRead := false,
    memWrite := false, branch := false, jump := false, pcUpdate := .increment }

/-- The row of a conditional branch (R142). -/
def branchBundle (op : AluOp) : Bundle :=
  { aluOp := some op, srcA := .rs1, srcB := .rs2, regWrite := false, regSrc := .none, memRead := false,
    memWrite := false, branch := true, jump := false, pcUpdate := .branch }

/-- "A safe bundle: no writes, no memory access, PC-update = increment" (R143). -/
def safeBundle : Bundle :=
  { aluOp := none, srcA := .none, srcB := .none, regWrite := false, regSrc := .none, memRead := false,
    memWrite := false, branch := false, jump := false, pcUpdate := .increment }

/-- The bundle of each mnemonic (R142). -/
def controlOf : Mnemonic → Bundle
  | .add => aluBundle .add .rs2
  | .sub => aluBundle .sub .rs2
  | .and => aluBundle .and .rs2
  | .or => aluBundle .or .rs2
  | .xor => aluBundle .xor .rs2
  | .addi => aluBundle .add .imm
  | .lw => { safeBundle with srcA := .rs1, srcB := .imm, regWrite := true, regSrc := .mem, memRead := true }
  | .sw => { safeBundle with srcA := .rs1, srcB := .imm, memWrite := true }
  | .beq => branchBundle .eq
  | .bne => branchBundle .ne
  | .jal => { safeBundle with regWrite := true, regSrc := .pcPlus1, jump := true, pcUpdate := .jump }
  | .nop => safeBundle
  | .halt => { safeBundle with pcUpdate := .halt }
  | .reservedD => safeBundle
  | .reservedE => safeBundle
  | .reservedF => safeBundle

/-- `generate_control_signals(instruction)`: the mnemonic alone decides (R140). -/
def generateControlSignals (i : Instr) : Bundle := controlOf i.mnemonic

/-- `is_branch` (R143). -/
def isBranch (i : Instr) : Bool := (generateControlSignals i).branch

/-- `is_jump` (R143). -/
def isJump (i : Instr) : Bool := (generateControlSignals i).jump

/-- `accesses_memory` (R143). -/
def accessesMemory (i : Instr) : Bool := (generateControlSignals i).memRead || (generateControlSignals i).memWrite

/-- `should_halt` (R143). -/
def shouldHalt (i : Instr) : Bool := (generateControlSignals i).pcUpdate == .halt

/-! ### The data path: stages 4 and 5 as the bundle's signals say (R141, R142, R149, R151)

The meanings of the instructions stand in their own files and read no bundle: one statement says that the data path under
the table's bundle is each valid instruction's meaning. -/

/-- The field `rd`, of the formats that have one (30_encoding.md R92). -/
def fieldRd : Instr → Option RegIdx
  | .add rd _ _ | .sub rd _ _ | .and rd _ _ | .or rd _ _ | .xor rd _ _ | .addi rd _ _ | .lw rd _ _ | .jal rd _ => some rd
  | .sw _ _ _ | .beq _ _ _ | .bne _ _ _ | .nop | .halt | .reservedD _ | .reservedE _ | .reservedF _ => none

/-- The field `rs1`. -/
def fieldRs1 : Instr → Option RegIdx
  | .add _ rs1 _ | .sub _ rs1 _ | .and _ rs1 _ | .or _ rs1 _ | .xor _ rs1 _ | .addi _ rs1 _ | .lw _ rs1 _
  | .sw _ rs1 _ | .beq rs1 _ _ | .bne rs1 _ _ => some rs1
  | .jal _ _ | .nop | .halt | .reservedD _ | .reservedE _ | .reservedF _ => none

/-- The field `rs2`. -/
def fieldRs2 : Instr → Option RegIdx
  | .add _ _ rs2 | .sub _ _ rs2 | .and _ _ rs2 | .or _ _ rs2 | .xor _ _ rs2 | .sw rs2 _ _ | .beq _ rs2 _
  | .bne _ rs2 _ => some rs2
  | .addi _ _ _ | .lw _ _ _ | .jal _ _ | .nop | .halt | .reservedD _ | .reservedE _ | .reservedF _ => none

/-- The unsigned immediate or offset of formats I and S (R93, R94). -/
def fieldImm : Instr → Option Word
  | .addi _ _ imm | .lw _ _ imm | .sw _ _ imm => some (zext16 imm)
  | .add _ _ _ | .sub _ _ _ | .and _ _ _ | .or _ _ _ | .xor _ _ _ | .beq _ _ _ | .bne _ _ _ | .jal _ _ | .nop
  | .halt | .reservedD _ | .reservedE _ | .reservedF _ => none

/-- The target of formats B and J from the `pc` of the instruction itself (R95, R96, 43_branch_jump.md R221). -/
def targetFrom (pc : Word) : Instr → Option Word
  | .beq _ _ off | .bne _ _ off => some (branchTarget pc off)
  | .jal _ off => some (branchTarget pc off)
  | .add _ _ _ | .sub _ _ _ | .and _ _ _ | .or _ _ _ | .xor _ _ _ | .addi _ _ _ | .lw _ _ _ | .sw _ _ _ | .nop
  | .halt | .reservedD _ | .reservedE _ | .reservedF _ => none

/-- The first operand `src_a` selects. -/
def operandA (c : Bundle) (i : Instr) (s : State) : Option Word :=
  match c.srcA with
  | .rs1 => (fieldRs1 i).map s.readReg
  | .none => none

/-- The second operand `src_b` selects. -/
def operandB (c : Bundle) (i : Instr) (s : State) : Option Word :=
  match c.srcB with
  | .rs2 => (fieldRs2 i).map s.readReg
  | .imm => fieldImm i
  | .none => none

/-- The ALU's call with the code that `alu_op` travels as under the session's ALU-code map (41_alu.md R171). -/
def aluCall (c : Bundle) (i : Instr) (s : State) : Option (Word × Flags) :=
  match c.aluOp, operandA c i s, operandB c i s with
  | some op, some a, some b => aluExecute s.config.aluMap a b (s.config.aluMap.codeOf op)
  | _, _, _ => none

/-- The sum of the address adder, which the same two operands feed (R142, 42_load_store.md R200). -/
def addressSum (c : Bundle) (i : Instr) (s : State) : Option Word :=
  match operandA c i s, operandB c i s with
  | some a, some b => some (mask16 (a.toNat + b.toNat))
  | _, _ => none

/-- The value `reg_src` selects: the ALU's result, the word from memory, or the address after the instruction's. -/
def writeBackValue (c : Bundle) (result loaded : Option Word) (pc : Word) : Option Word :=
  match c.regSrc with
  | .alu => result
  | .mem => loaded
  | .pcPlus1 => some (nextPc pc)
  | .none => none

/-- The register write, where `reg_write` is 1. -/
def writeBack (c : Bundle) (i : Instr) (value : Option Word) (s : State) : State :=
  match c.regWrite, fieldRd i, value with
  | true, some rd, some v => s.writeReg rd v
  | _, _, _ => s

/-- A branch whose ALU result is 1, or a jump. -/
def targetTaken (c : Bundle) (result : Option Word) : Bool := (c.branch && result == some 1) || c.jump

/-- The `pc` update in the bundle's mode (R151). -/
def updatePc (c : Bundle) (i : Instr) (result : Option Word) (s : State) : State :=
  match c.pcUpdate with
  | .increment => s.advance
  | .branch | .jump =>
    match targetTaken c result, targetFrom s.pc i with
    | true, some t => s.setPc t
    | _, _ => s.advance
  | .halt => s.setHalted

/-- Stages 4 to 6 of a valid instruction as a bundle drives them, but for the history record: ALU and flags, memory,
register write, `pc`, counters. -/
def datapath (c : Bundle) (i : Instr) (s : State) : Result :=
  let alu := aluCall c i s
  let result := alu.map Prod.fst
  let t : State := match alu with
    | some r => s.setFlags r.2
    | none => s
  let finish (loaded : Option Word) (u : State) : Result :=
    .next ((updatePc c i result (writeBack c i (writeBackValue c result loaded s.pc) u)).retire)
  match c.memRead, c.memWrite, addressSum c i s with
  | true, _, some ea => loadWord i ea t (fun v u => finish (some v) u)
  | false, true, some ea => storeWord i ea (((fieldRs2 i).map s.readReg).getD 0) t (finish none)
  | _, _, _ => finish none t

end Sys2Proof.Machine
end

