-- ==== Sys2Proof/Safety.lean ====
section
/-! DEFINITION. What counts as a safe run (60_exceptions.md R268, 40_core_cycle.md R154), and the invariant of the
machine's state. -/

namespace Sys2Proof.Machine

/-- No error has been raised since reset (60_exceptions.md R268). -/
def State.clean (s : State) : Bool := !s.errorSeen

/-- A run of `n` steps from `s` that ends, halted and clean, in `t` (R154, R268). A fault is never final (R263). -/
def EndsCleanly (n : Nat) (s t : State) : Prop :=
  Sys2Proof.core.run n s = .next t ∧ t.halted = true ∧ t.clean = true

/-! ### Terms the claims use -/

/-- What no instruction changes: the configuration (10_state.md R35), Instruction Memory, `prog_len` (R36) and the mark of
a load (log 18); and the history, to which only the step appends (40_core_cycle.md R151). -/
def SameBackground (s t : State) : Prop :=
  t.config = s.config ∧ t.imem = s.imem ∧ t.progLen = s.progLen ∧ t.loaded = s.loaded ∧
    t.history = s.history

/-- No error was recorded. -/
def SameErrors (s t : State) : Prop := t.log = s.log ∧ t.errorSeen = s.errorSeen

/-- One record of the error `e` was appended to the bounded log, and the sticky flag is set (10_state.md R47). -/
def ErrorRecorded (e : Fault) (s t : State) : Prop :=
  t.log = pushBounded s.config.logBound s.log e ∧ t.errorSeen = true

/-- Both counters rose by one (40_core_cycle.md R151). -/
def Retired (s t : State) : Prop := t.cycles = s.cycles + 1 ∧ t.instret = s.instret + 1

/-- Every data word reads as before. -/
def SameData (s t : State) : Prop := ∀ a : Nat, t.dmem.read a = s.dmem.read a

/-- Every register reads as before. -/
def SameRegs (s t : State) : Prop := ∀ j : RegIdx, t.readReg j = s.readReg j

/-- Register `rd` holds `r`, unless it is register 0, which stays 0; every other register reads as before. -/
def RegWritten (rd : RegIdx) (r : Word) (s t : State) : Prop :=
  ∀ j : RegIdx, t.readReg j = if j = rd ∧ rd ≠ 0 then r else s.readReg j

/-- The whole effect of an ALU instruction with result `r` and overflow `v`: `rd`, the three flags, `pc + 1`, the
counters, and nothing else. -/
def AluEffect (rd : RegIdx) (r : Word) (v : Bool) (s t : State) : Prop :=
  RegWritten rd r s t ∧
  (t.flags.z = true ↔ r = 0) ∧ t.flags.n = r.getLsbD 15 ∧ t.flags.v = v ∧
  t.pc.toNat = (s.pc.toNat + 1) % 65536 ∧ Retired s t ∧
  t.halted = s.halted ∧ SameData s t ∧ SameErrors s t ∧ SameBackground s t

/-- The part of the state an execution can depend on: not the flags, the counters, `prog_len`, the mark of a load,
the history, the log or the sticky flag (10_state.md R30, R33, R34, R36, R46, R47). -/
def SameArch (s t : State) : Prop :=
  t.config = s.config ∧ t.regs = s.regs ∧ t.pc = s.pc ∧ t.halted = s.halted ∧ t.imem = s.imem ∧ t.dmem = s.dmem

/-- Two outcomes of the same kind, with the same part of the state or the same fault. -/
def SameArchOutcome : Result → Result → Prop
  | .next s, .next t => SameArch s t
  | .fault e, .fault f => e = f
  | .refused e, .refused f => e = f
  | _, _ => False

/-- What every step keeps: both memories canonical and inside their sizes, register slot 0 zero, the buffers inside
their bounds, `instret ≤ cycles` with equality while no error has been seen (10_state.md R34), the log empty while no
error has been seen and, if it has any capacity, not after (60_exceptions.md R268). -/
def State.Inv (s : State) : Prop :=
  s.imem.wf = true ∧ s.imem.within s.config.imSize = true ∧
  s.dmem.wf = true ∧ s.dmem.within s.config.dmSize = true ∧
  s.regs[0] = 0 ∧
  s.history.length ≤ historyBound ∧
  s.log.length ≤ s.config.logBound ∧
  s.instret ≤ s.cycles ∧
  (s.errorSeen = false → s.instret = s.cycles ∧ s.log = []) ∧
  (s.errorSeen = true → 1 ≤ s.config.logBound → s.log ≠ [])

end Sys2Proof.Machine
end

