-- ==== Sys2Proof/Certificates/Slice0/Obligations.lean ====
section
/-! DEFINITION. The statements for the provers. Each docstring names the rules of spec/ it formalises, and the log entry
where it rests on a decision of the spec. -/

open Sys2Proof Sys2Proof.Machine

/-! ### Registers and fields -/

/-- R24, whole: a write to a register 1 to 15 returns true and is read back, reduced to 16 bits; register 0 reads 0
whatever was written and its write returns false; `reset_all` zeroes every register; an index above 15 or an unknown
name reads 0, fails to write, and is reported. -/
def Obligations.RegisterFileReadsBackWrites : Prop :=
  ∀ r : RegFile,
    (∀ (i : RegIdx) (v : Int), i ≠ 0 → (r.write i (mask16 v)).1 = true ∧
      (((r.write i (mask16 v)).2.read i).toNat : Int) = v % 65536 ∧
      ∀ j : RegIdx, j ≠ i → (r.write i (mask16 v)).2.read j = r.read j) ∧
    (∀ v : Word, (r.write 0 v).1 = false ∧ ∀ j : RegIdx, (r.write 0 v).2.read j = r.read j) ∧
    r.read 0 = 0 ∧
    (∀ i : RegIdx, r.resetAll.read i = 0) ∧
    (∀ (n : Nat) (h : n < 16) (v : Word), r.hostRead (.index n) = (r.read ⟨n, h⟩, false) ∧
      r.hostWrite (.index n) v = (r.write ⟨n, h⟩ v, false)) ∧
    (∀ (n : Nat) (v : Word), 16 ≤ n → r.hostRead (.index n) = (0, true) ∧
      r.hostWrite (.index n) v = ((false, r), true)) ∧
    (∀ (n : List Char) (v : Word), regOfName n = none → r.hostRead (.name n) = (0, true) ∧
      r.hostWrite (.name n) v = ((false, r), true))

/-- R25, whole: writing register 0 returns false and leaves every register; an instruction with `rd = 0` completes in
both policies without a record in the log, and does all that it does with another destination but the register write. -/
def Obligations.RegisterZeroDestinationDiscardsOnlyTheResult : Prop :=
  (∀ (r : RegFile) (v : Word), (r.write 0 v).1 = false ∧ (r.write 0 v).2.read 0 = 0) ∧
  ∀ (s : State) (a b rd : RegIdx) (imm : BitVec 4) (off : BitVec 8),
    (∀ p ∈ [(Instr.add 0 a b, Instr.add rd a b), (.sub 0 a b, .sub rd a b), (.and 0 a b, .and rd a b),
            (.or 0 a b, .or rd a b), (.xor 0 a b, .xor rd a b), (.addi 0 a imm, .addi rd a imm),
            (.jal 0 off, .jal rd off)],
      ∃ t u, exec p.1 s = .next t ∧ exec p.2 s = .next u ∧ SameRegs s t ∧ SameErrors s t ∧
        t = { u with regs := s.regs }) ∧
    ((effectiveAddress s a imm).toNat < s.config.dmSize →
      ∃ t u, exec (.lw 0 a imm) s = .next t ∧ exec (.lw rd a imm) s = .next u ∧ SameRegs s t ∧ SameErrors s t ∧
        t = { u with regs := s.regs })

/-- R12, whole: zero extension keeps the integer, sign extension is the two's-complement encoding of `s(f)` for fields
of 4 and 8 bits, and `mask16` reduces any integer modulo 2^16. -/
def Obligations.FieldExtensionAndMasking : Prop :=
  (∀ f : BitVec 4, (zext16 f).toNat = f.toNat ∧
    signedValue f = (if f.toNat < 8 then (f.toNat : Int) else f.toNat - 16) ∧
    -8 ≤ signedValue f ∧ signedValue f ≤ 7 ∧ (sext16 f).toInt = signedValue f) ∧
  (∀ f : BitVec 8, (zext16 f).toNat = f.toNat ∧
    signedValue f = (if f.toNat < 128 then (f.toNat : Int) else f.toNat - 256) ∧
    -128 ≤ signedValue f ∧ signedValue f ≤ 127 ∧ (sext16 f).toInt = signedValue f) ∧
  (∀ v : Int, ((mask16 v).toNat : Int) = v % 65536) ∧ mask16 (-1) = 0xFFFF

/-- R93 and R94, whole: the low 4 bits of an ADDI, LW or SW word are an unsigned number 0 to 15, added unscaled: to the
register by ADDI, to the base by LW and SW. Under any opcode map. -/
def Obligations.ImmediateAndOffsetFieldsAreUnsigned : Prop :=
  ∀ (m : OpMap) (w : Word) (s : State),
    (m.slot (opcodeField w) = .addi → ∃ rd rs1 imm, decode m w = .addi rd rs1 imm ∧ imm.toNat = w.toNat % 16 ∧
      ∃ t, exec (.addi rd rs1 imm) s = .next t ∧
        (rd ≠ 0 → (t.readReg rd).toNat = ((s.readReg rs1).toNat + w.toNat % 16) % 65536)) ∧
    (m.slot (opcodeField w) = .lw → ∃ rd rs1 imm, decode m w = .lw rd rs1 imm ∧ imm.toNat = w.toNat % 16 ∧
      (effectiveAddress s rs1 imm).toNat = ((s.readReg rs1).toNat + w.toNat % 16) % 65536) ∧
    (m.slot (opcodeField w) = .sw → ∃ rs2 rs1 off, decode m w = .sw rs2 rs1 off ∧ off.toNat = w.toNat % 16 ∧
      (effectiveAddress s rs1 off).toNat = ((s.readReg rs1).toNat + w.toNat % 16) % 65536)

/-- R95 and R96: the low 4 bits of a BEQ or BNE word, and the low 8 of a JAL word, are a two's-complement number of
instruction words, and a taken branch or a jump adds it to its own address with no +1. Under any opcode map. The
reduction modulo 2^16 is the spec's decision D8 (log 10). -/
def Obligations.BranchAndJumpOffsetsAreSigned : Prop :=
  ∀ (m : OpMap) (w : Word) (s : State),
    (m.slot (opcodeField w) = .beq → ∃ rs1 rs2 off, decode m w = .beq rs1 rs2 off ∧
      (s.readReg rs1 = s.readReg rs2 → ∃ t, exec (.beq rs1 rs2 off) s = .next t ∧
        (t.pc.toNat : Int) =
          (s.pc.toNat + (if w.toNat % 16 < 8 then (w.toNat % 16 : Nat) else (w.toNat % 16 : Nat) - 16 : Int)) % 65536)) ∧
    (m.slot (opcodeField w) = .bne → ∃ rs1 rs2 off, decode m w = .bne rs1 rs2 off ∧
      (s.readReg rs1 ≠ s.readReg rs2 → ∃ t, exec (.bne rs1 rs2 off) s = .next t ∧
        (t.pc.toNat : Int) =
          (s.pc.toNat + (if w.toNat % 16 < 8 then (w.toNat % 16 : Nat) else (w.toNat % 16 : Nat) - 16 : Int)) % 65536)) ∧
    (m.slot (opcodeField w) = .jal → ∃ rd off, decode m w = .jal rd off ∧
      ∃ t, exec (.jal rd off) s = .next t ∧
        (t.pc.toNat : Int) =
          (s.pc.toNat + (if w.toNat % 256 < 128 then (w.toNat % 256 : Nat) else (w.toNat % 256 : Nat) - 256 : Int)) % 65536)

/-! ### Encoding -/

/-- The decoder reads the fields of the formats R, I, S, B and J at the bits Table A gives them (R92), a word of NOP's or
HALT's opcode decodes to it whatever its low 12 bits, and an encoded NOP or HALT has them zero. Under any opcode map. That
non-zero low bits are ignored is the spec's decision D12 (log 7). -/
def Obligations.FormatsPlaceFieldsAsTableA : Prop :=
  ∀ (m : OpMap) (w : Word),
    let f11 : RegIdx := ⟨w.toNat / 256 % 16, Nat.mod_lt _ (by decide)⟩
    let f7 : RegIdx := ⟨w.toNat / 16 % 16, Nat.mod_lt _ (by decide)⟩
    let f3 : RegIdx := ⟨w.toNat % 16, Nat.mod_lt _ (by decide)⟩
    let i3 : BitVec 4 := BitVec.ofNat 4 w.toNat
    let row := m.slot (BitVec.ofNat 4 (w.toNat / 4096))
    (row = .add → decode m w = .add f11 f7 f3) ∧
    (row = .sub → decode m w = .sub f11 f7 f3) ∧
    (row = .and → decode m w = .and f11 f7 f3) ∧
    (row = .or → decode m w = .or f11 f7 f3) ∧
    (row = .xor → decode m w = .xor f11 f7 f3) ∧
    (row = .addi → decode m w = .addi f11 f7 i3) ∧
    (row = .lw → decode m w = .lw f11 f7 i3) ∧
    (row = .sw → decode m w = .sw f11 f7 i3) ∧
    (row = .beq → decode m w = .beq f11 f7 i3) ∧
    (row = .bne → decode m w = .bne f11 f7 i3) ∧
    (row = .jal → decode m w = .jal f11 (BitVec.ofNat 8 w.toNat)) ∧
    (row = .nop → decode m w = .nop) ∧
    (row = .halt → decode m w = .halt) ∧
    (encode m .nop).toNat % 4096 = 0 ∧ (encode m .halt).toNat % 4096 = 0

/-- R103, whole, under any opcode map: decoding the encoding of a well-formed instruction gives it back; encoding what
a word decodes to gives the word back, unless it is Invalid or a Special word with non-zero low bits; and the decoded
instruction is always well-formed. The opcode map is one parameter of both. -/
def Obligations.DecodeAndEncodeAgree : Prop :=
  ∀ m : OpMap,
    (∀ i : Instr, i.wellFormed m = true → decode m (encode m i) = i) ∧
    (∀ w : Word, (decode m w).wellFormed m = true) ∧
    (m.wf = true → ∀ w : Word, (decode m w).mnemonic.valid = true → specialLowBitsSet m w = false →
      encode m (decode m w) = w)

/-- Words of 95_test_vectors.md section 2.1, one for each instruction, decode as listed there. The opcode numbers are
the spec's decision D2 (log 5), the ignored low bits of the Special words its decision D12 (log 7). -/
def Obligations.SpecWordsDecode : Prop :=
  decode OpMap.standard 0x0312 = .add 3 1 2 ∧ decode OpMap.standard 0x1FED = .sub 15 14 13 ∧
  decode OpMap.standard 0x2312 = .and 3 1 2 ∧ decode OpMap.standard 0x3312 = .or 3 1 2 ∧
  decode OpMap.standard 0x4312 = .xor 3 1 2 ∧ decode OpMap.standard 0x510A = .addi 1 0 10 ∧
  decode OpMap.standard 0x6F0F = .lw 15 0 15 ∧ decode OpMap.standard 0x7A5F = .sw 10 5 15 ∧
  decode OpMap.standard 0x8ABF = .beq 10 11 (-1) ∧ decode OpMap.standard 0x9128 = .bne 1 2 (-8) ∧
  decode OpMap.standard 0xA280 = .jal 2 (-128) ∧ decode OpMap.standard 0xB000 = .nop ∧
  decode OpMap.standard 0xBFFF = .nop ∧ decode OpMap.standard 0xC000 = .halt ∧ decode OpMap.standard 0xC001 = .halt ∧
  decode OpMap.standard 0xD000 = .reservedD 0xD000 ∧ decode OpMap.standard 0xE7A3 = .reservedE 0xE7A3 ∧
  decode OpMap.standard 0xFFFF = .reservedF 0xFFFF

/-- The decoder's record of every word, under any opcode map (R102): it carries the raw word and the decoded instruction,
and it is marked valid exactly where the word's opcode selects an instruction and no reserved row; two words never share
a record. -/
def Obligations.DecodedRecordCarriesTheRawWord : Prop :=
  ∀ (m : OpMap) (w : Word),
    (decodeRecord m w).raw = w ∧ (decodeRecord m w).instr = decode m w ∧
    ((decodeRecord m w).valid = true ↔ m.slot (opcodeField w) ∉ [.reservedD, .reservedE, .reservedF]) ∧
    ∀ v : Word, decodeRecord m v = decodeRecord m w → v = w

/-- Under the standard map exactly the words from 0xD000 on are Invalid; each keeps its raw word (R99). Which opcodes
are reserved is the spec's decision D1, D2 (log 5). -/
def Obligations.ReservedWordsAreThoseFromD000 : Prop :=
  ∀ w : Word,
    ((decode OpMap.standard w).mnemonic.valid = false ↔ 0xD000 ≤ w.toNat) ∧
    (0xD000 ≤ w.toNat → w.toNat < 0xE000 → decode OpMap.standard w = .reservedD w) ∧
    (0xE000 ≤ w.toNat → w.toNat < 0xF000 → decode OpMap.standard w = .reservedE w) ∧
    (0xF000 ≤ w.toNat → decode OpMap.standard w = .reservedF w)

/-- A program check refuses exactly the words from 0xD000 on and the Special words 0xB001 to 0xBFFF and 0xC001 to
0xCFFF (93_implementation_defined.md U1, U2; the numbering is D2, log 5). -/
def Obligations.ProgramCheckRefusesReservedEncodings : Prop :=
  ∀ w : Word, wordWellFormed OpMap.standard w = true ↔
    w.toNat < 0xB000 ∨ w.toNat = 0xB000 ∨ w.toNat = 0xC000

/-! ### The ALU -/

/-- The table of R172 for every pair of operands. That `V` is 0 on every operation but ADD is the spec's decision D6
(log 8). -/
def Obligations.AluResultsAndFlags : Prop :=
  ∀ a b : Word,
    (aluResult .add a b).toNat = (a.toNat + b.toNat) % 65536 ∧
    ((aluResult .sub a b).toNat : Int) = ((a.toNat : Int) - b.toNat) % 65536 ∧
    (a.toNat < b.toNat → (aluResult .sub a b).toNat = a.toNat + 65536 - b.toNat) ∧
    (∀ k < 16, (aluResult .and a b).getLsbD k = (a.getLsbD k && b.getLsbD k)) ∧
    (∀ k < 16, (aluResult .or a b).getLsbD k = (a.getLsbD k || b.getLsbD k)) ∧
    (∀ k < 16, (aluResult .xor a b).getLsbD k = (a.getLsbD k != b.getLsbD k)) ∧
    (aluResult .eq a b).toNat = (if a = b then 1 else 0) ∧
    (aluResult .ne a b).toNat = (if a = b then 0 else 1) ∧
    ((aluFlags .add a b).v = true ↔ 65535 < a.toNat + b.toNat) ∧
    (∀ op : AluOp, ((aluFlags op a b).z = true ↔ (aluResult op a b).toNat = 0) ∧
      ((aluFlags op a b).n = true ↔ 32768 ≤ (aluResult op a b).toNat) ∧
      (op ≠ .add → (aluFlags op a b).v = false))

/-- Under every well-formed ALU-code map the code of an operation selects it, and a code that stands for none gives no
result (R170, R173); the standard map is R171's. The codes are the spec's decisions D3 and D15 (log 21). -/
def Obligations.AluCodesSelectOperations : Prop :=
  (∀ (m : AluMap) (a b : Word),
    (m.wf = true → ∀ op : AluOp, aluExecute m a b (m.codeOf op) = some (aluResult op a b, aluFlags op a b)) ∧
    (∀ c : BitVec 3, m.opOf c = none → aluExecute m a b c = none)) ∧
  AluMap.standard.wf = true ∧
  AluOp.all.map AluMap.standard.codeOf = [0, 1, 2, 3, 4, 5, 6] ∧ AluMap.standard.opOf 7 = none

/-! ### Results of the instructions: each completes, with the next state the spec gives -/

/-- ADD (R175 without its encoding): sum modulo 2^16, `V` the carry out; nothing else changes. -/
def Obligations.AddWritesSumAndCarry : Prop :=
  ∀ (s : State) (rd rs1 rs2 : RegIdx), ∃ t, exec (.add rd rs1 rs2) s = .next t ∧
    AluEffect rd (BitVec.ofNat 16 ((s.readReg rs1).toNat + (s.readReg rs2).toNat))
      (decide (65535 < (s.readReg rs1).toNat + (s.readReg rs2).toNat)) s t

/-- SUB (R176 without its encoding): difference modulo 2^16. `V = 0` is the spec's decision D6 (log 8), the
instruction's existence its decision D1 (log 5). -/
def Obligations.SubWritesWrappedDifference : Prop :=
  ∀ (s : State) (rd rs1 rs2 : RegIdx), ∃ t, exec (.sub rd rs1 rs2) s = .next t ∧
    AluEffect rd (BitVec.ofInt 16 ((s.readReg rs1).toNat - (s.readReg rs2).toNat)) false s t

/-- AND, OR, XOR (R177, R178, R179 without their encodings), bit by bit. `V = 0` is the spec's decision D6 (log 8), the
instructions' existence its decision D1 (log 5). -/
def Obligations.LogicalInstructionsWorkBitwise : Prop :=
  ∀ (s : State) (rd rs1 rs2 : RegIdx),
    let a := s.readReg rs1
    let b := s.readReg rs2
    (∃ t r, exec (.and rd rs1 rs2) s = .next t ∧ (∀ k < 16, r.getLsbD k = (a.getLsbD k && b.getLsbD k)) ∧
      AluEffect rd r false s t) ∧
    (∃ t r, exec (.or rd rs1 rs2) s = .next t ∧ (∀ k < 16, r.getLsbD k = (a.getLsbD k || b.getLsbD k)) ∧
      AluEffect rd r false s t) ∧
    (∃ t r, exec (.xor rd rs1 rs2) s = .next t ∧ (∀ k < 16, r.getLsbD k = (a.getLsbD k != b.getLsbD k)) ∧
      AluEffect rd r false s t)

/-- ADDI (R180 without its encoding): the immediate 0 to 15 added, flags as ADD. -/
def Obligations.AddiAddsUnsignedImmediate : Prop :=
  ∀ (s : State) (rd rs1 : RegIdx) (imm : BitVec 4), ∃ t, exec (.addi rd rs1 imm) s = .next t ∧
    AluEffect rd (BitVec.ofNat 16 ((s.readReg rs1).toNat + imm.toNat))
      (decide (65535 < (s.readReg rs1).toNat + imm.toNat)) s t

/-- LW in range (R201 without its encoding), in both policies: the word at `mask16(x[rs1] + imm)`. That the range is
`ea < DM_SIZE` is the spec's decision D5 (log 11), that the flags stay its decision D7 (log 9). -/
def Obligations.LoadReadsTheWordAtItsAddress : Prop :=
  ∀ (s : State) (rd rs1 : RegIdx) (imm : BitVec 4),
    ((s.readReg rs1).toNat + imm.toNat) % 65536 < s.config.dmSize →
    ∃ t, exec (.lw rd rs1 imm) s = .next t ∧
      RegWritten rd (s.dmem.read (((s.readReg rs1).toNat + imm.toNat) % 65536)) s t ∧
      t.flags = s.flags ∧ t.pc.toNat = (s.pc.toNat + 1) % 65536 ∧ Retired s t ∧
      t.halted = s.halted ∧ SameData s t ∧ SameErrors s t ∧ SameBackground s t

/-- LW out of range (R201, R67): under the graceful policy it completes with 0 and one log record; under the strict
policy it faults. The range and the aborted step are the spec's decisions D5, D11 (log 11, 12), the log's form is
log 16. -/
def Obligations.LoadOutOfRangeDegradesOrFaults : Prop :=
  ∀ (s : State) (rd rs1 : RegIdx) (imm : BitVec 4),
    let ea := effectiveAddress s rs1 imm
    let e := Fault.dataOutOfRange .read s.pc (.lw rd rs1 imm) ea
    s.config.dmSize ≤ ea.toNat →
    (s.config.strict = false → ∃ t, exec (.lw rd rs1 imm) s = .next t ∧ RegWritten rd 0 s t ∧
      t.flags = s.flags ∧ t.pc.toNat = (s.pc.toNat + 1) % 65536 ∧ Retired s t ∧
      t.halted = s.halted ∧ SameData s t ∧ ErrorRecorded e s t ∧ SameBackground s t) ∧
    (s.config.strict = true → exec (.lw rd rs1 imm) s = .fault e)

/-- SW in range (R202 without its encoding), in both policies: the word at `mask16(x[rs1] + off)` becomes `x[rs2]`, and
every other data word stays. The range is the spec's decision D5 (log 11), the flags staying its decision D7 (log 9).
The premise is the memory's canonical form, which every step keeps. -/
def Obligations.StoreWritesOneWord : Prop :=
  ∀ (s : State) (rs2 rs1 : RegIdx) (off : BitVec 4), s.dmem.wf = true →
    ((s.readReg rs1).toNat + off.toNat) % 65536 < s.config.dmSize →
    ∃ t, exec (.sw rs2 rs1 off) s = .next t ∧
      (∀ a : Nat, t.dmem.read a =
        if a = ((s.readReg rs1).toNat + off.toNat) % 65536 then s.readReg rs2 else s.dmem.read a) ∧
      SameRegs s t ∧ t.flags = s.flags ∧ t.pc.toNat = (s.pc.toNat + 1) % 65536 ∧ Retired s t ∧
      t.halted = s.halted ∧ SameErrors s t ∧ SameBackground s t

/-- SW out of range (R202, R68): under the graceful policy it completes, no word changes, one log record; under the
strict policy it faults. The range and the aborted step are the spec's decisions D5, D11 (log 11, 12). -/
def Obligations.StoreOutOfRangeIsDroppedOrFaults : Prop :=
  ∀ (s : State) (rs2 rs1 : RegIdx) (off : BitVec 4),
    let ea := effectiveAddress s rs1 off
    let e := Fault.dataOutOfRange .write s.pc (.sw rs2 rs1 off) ea
    s.config.dmSize ≤ ea.toNat →
    (s.config.strict = false → ∃ t, exec (.sw rs2 rs1 off) s = .next t ∧ SameRegs s t ∧
      t.flags = s.flags ∧ t.pc.toNat = (s.pc.toNat + 1) % 65536 ∧ Retired s t ∧
      t.halted = s.halted ∧ SameData s t ∧ ErrorRecorded e s t ∧ SameBackground s t) ∧
    (s.config.strict = true → exec (.sw rs2 rs1 off) s = .fault e)

/-- BEQ (R222 without its encoding): taken iff the registers are equal; the flags of EQ in both cases; no register and
no data word changes. The wrap of the target is the spec's decision D8 (log 10), `V = 0` its decision D6 (log 8). -/
def Obligations.BeqBranchesOnEqual : Prop :=
  ∀ (s : State) (rs1 rs2 : RegIdx) (off : BitVec 4), ∃ t, exec (.beq rs1 rs2 off) s = .next t ∧
    (t.pc.toNat : Int) =
      (if s.readReg rs1 = s.readReg rs2 then s.pc.toNat + off.toInt else s.pc.toNat + 1) % 65536 ∧
    t.flags = { z := decide (s.readReg rs1 ≠ s.readReg rs2), n := false, v := false } ∧
    SameRegs s t ∧ Retired s t ∧ t.halted = s.halted ∧ SameData s t ∧ SameErrors s t ∧ SameBackground s t

/-- BNE (R223 without its encoding): taken iff the registers differ; the flags of NE in both cases. The wrap of the
target is the spec's decision D8 (log 10), `V = 0` its decision D6 (log 8). -/
def Obligations.BneBranchesOnDifferent : Prop :=
  ∀ (s : State) (rs1 rs2 : RegIdx) (off : BitVec 4), ∃ t, exec (.bne rs1 rs2 off) s = .next t ∧
    (t.pc.toNat : Int) =
      (if s.readReg rs1 ≠ s.readReg rs2 then s.pc.toNat + off.toInt else s.pc.toNat + 1) % 65536 ∧
    t.flags = { z := decide (s.readReg rs1 = s.readReg rs2), n := false, v := false } ∧
    SameRegs s t ∧ Retired s t ∧ t.halted = s.halted ∧ SameData s t ∧ SameErrors s t ∧ SameBackground s t

/-- JAL (R224 without its encoding): link and target both from the old `pc`. That the flags stay is the spec's decision
D7 (log 9), the wrap its decision D8 (log 10). -/
def Obligations.JalLinksAndJumps : Prop :=
  ∀ (s : State) (rd : RegIdx) (off : BitVec 8), ∃ t, exec (.jal rd off) s = .next t ∧
    RegWritten rd (BitVec.ofNat 16 (s.pc.toNat + 1)) s t ∧
    (t.pc.toNat : Int) = (s.pc.toNat + off.toInt) % 65536 ∧
    t.flags = s.flags ∧ Retired s t ∧ t.halted = s.halted ∧ SameData s t ∧ SameErrors s t ∧ SameBackground s t

/-- NOP (R241) and HALT (R242), without their encodings: NOP only advances `pc`; HALT sets `halted` and keeps `pc`;
both count. That the flags stay is the spec's decision D7 (log 9). -/
def Obligations.NopAdvancesAndHaltHalts : Prop :=
  ∀ s : State,
    (∃ t, exec .nop s = .next t ∧ t.pc.toNat = (s.pc.toNat + 1) % 65536 ∧ t.halted = s.halted ∧
      t.flags = s.flags ∧ SameRegs s t ∧ Retired s t ∧ SameData s t ∧ SameErrors s t ∧ SameBackground s t) ∧
    (∃ t, exec .halt s = .next t ∧ t.pc = s.pc ∧ t.halted = true ∧
      t.flags = s.flags ∧ SameRegs s t ∧ Retired s t ∧ SameData s t ∧ SameErrors s t ∧ SameBackground s t)

/-- The three reserved opcodes (R244): under the graceful policy an Invalid word is a no-op that advances `pc` and
counts a cycle but no instruction, with one log record; under the strict policy it faults. The aborted step is the
spec's decision D11 (log 12), which opcodes are reserved its decision D1, D2 (log 5). -/
def Obligations.InvalidWordIsNoOpOrFault : Prop :=
  ∀ (s : State) (raw : Word), ∀ i ∈ [Instr.reservedD raw, .reservedE raw, .reservedF raw],
    (s.config.strict = false → ∃ t, exec i s = .next t ∧ t.pc.toNat = (s.pc.toNat + 1) % 65536 ∧
      t.cycles = s.cycles + 1 ∧ t.instret = s.instret ∧ t.halted = s.halted ∧ t.flags = s.flags ∧
      SameRegs s t ∧ SameData s t ∧ ErrorRecorded (.invalidInstruction s.pc raw) s t ∧ SameBackground s t) ∧
    (s.config.strict = true → exec i s = .fault (.invalidInstruction s.pc raw))

/-- What the word 0x0000 does (R246): it decodes to `add x0, x0, x0`, which changes no register and no memory word,
advances `pc`, counts, and leaves the flags 1, 0, 0. The numbering is the spec's decision D2 (log 5). -/
def Obligations.ZeroWordIsNopButForTheFlags : Prop :=
  decode OpMap.standard 0 = .add 0 0 0 ∧
  ∀ s : State, ∃ t, exec (.add 0 0 0) s = .next t ∧ SameRegs s t ∧ SameData s t ∧ SameBackground s t ∧
    t.pc.toNat = (s.pc.toNat + 1) % 65536 ∧ Retired s t ∧ t.flags = { z := true, n := false, v := false } ∧
    t.halted = s.halted ∧ SameErrors s t

/-! ### Frames -/

/-- Frame of ADD, SUB, AND, OR, XOR, ADDI, LW and JAL: no register but `rd`, no data word and no instruction word
changes; LW and JAL leave the flags (D7, log 9); only LW may record an error. -/
def Obligations.FrameOfRegisterInstructions : Prop :=
  ∀ (s t : State) (rd a b : RegIdx) (imm : BitVec 4) (off : BitVec 8),
    ∀ i ∈ [Instr.add rd a b, .sub rd a b, .and rd a b, .or rd a b, .xor rd a b, .addi rd a imm, .lw rd a imm,
           .jal rd off],
      exec i s = .next t →
        (∀ j : RegIdx, j ≠ rd → t.readReg j = s.readReg j) ∧ t.readReg 0 = 0 ∧
        SameData s t ∧ (∀ k : Nat, t.imem.read k = s.imem.read k) ∧ t.halted = s.halted ∧ SameBackground s t ∧
        Retired s t ∧
        ((i = .lw rd a imm ∨ i = .jal rd off) → t.flags = s.flags) ∧
        ((i = .lw rd a imm → (effectiveAddress s a imm).toNat < s.config.dmSize) → SameErrors s t)

/-- Frame of SW: no register, no flag and no instruction word changes, and no data word but the one at its effective
address, and that one only in range. The flags staying is the spec's decision D7 (log 9). -/
def Obligations.FrameOfStore : Prop :=
  ∀ (s t : State) (rs2 rs1 : RegIdx) (off : BitVec 4), s.dmem.wf = true → exec (.sw rs2 rs1 off) s = .next t →
    SameRegs s t ∧ t.flags = s.flags ∧ t.halted = s.halted ∧ SameBackground s t ∧ Retired s t ∧
    (∀ k : Nat, t.imem.read k = s.imem.read k) ∧
    (∀ a : Nat, a ≠ (effectiveAddress s rs1 off).toNat → t.dmem.read a = s.dmem.read a) ∧
    (s.config.dmSize ≤ (effectiveAddress s rs1 off).toNat → SameData s t) ∧
    ((effectiveAddress s rs1 off).toNat < s.config.dmSize → SameErrors s t)

/-- Frame of BEQ, BNE, NOP, HALT and the reserved opcodes: no register, no data word and no instruction word changes;
only HALT changes `halted`; only the branches write flags (D7, log 9); only a reserved opcode records an error. -/
def Obligations.FrameOfInstructionsWithoutDestination : Prop :=
  ∀ (s t : State) (a b : RegIdx) (off : BitVec 4) (raw : Word),
    ∀ i ∈ [Instr.beq a b off, .bne a b off, .nop, .halt, .reservedD raw, .reservedE raw, .reservedF raw],
      exec i s = .next t →
        SameRegs s t ∧ SameData s t ∧ (∀ k : Nat, t.imem.read k = s.imem.read k) ∧ SameBackground s t ∧
        (i ≠ .halt → t.halted = s.halted) ∧
        (i ≠ .beq a b off → i ≠ .bne a b off → t.flags = s.flags) ∧
        (i.mnemonic.valid = true → SameErrors s t)

/-! ### The step -/

/-- How each class of instruction advances `pc` (R27). The reduction modulo 2^16 is the spec's decision D8 (log 10). -/
def Obligations.PcAdvancePerClass : Prop :=
  ∀ (i : Instr) (s t : State), exec i s = .next t →
    (t.pc.toNat : Int) = (match i with
      | .beq rs1 rs2 off =>
        if s.readReg rs1 = s.readReg rs2 then ((s.pc.toNat : Int) + off.toInt) % 65536
        else ((s.pc.toNat : Int) + 1) % 65536
      | .bne rs1 rs2 off =>
        if s.readReg rs1 = s.readReg rs2 then ((s.pc.toNat : Int) + 1) % 65536
        else ((s.pc.toNat : Int) + off.toInt) % 65536
      | .jal _ off => ((s.pc.toNat : Int) + off.toInt) % 65536
      | .halt => (s.pc.toNat : Int)
      | .add _ _ _ | .sub _ _ _ | .and _ _ _ | .or _ _ _ | .xor _ _ _ | .addi _ _ _ | .lw _ _ _ | .sw _ _ _
      | .nop | .reservedD _ | .reservedE _ | .reservedF _ => ((s.pc.toNat : Int) + 1) % 65536)

/-- When the word at `pc` is in range, a step of a core that is not halted is exec of the decoded instruction, with one
history record appended (R146 to R151). The record's fields are log 17. -/
def Obligations.StepRunsTheDecodedInstruction : Prop :=
  ∀ s : State, s.halted = false → s.pc.toNat < s.config.imSize →
    let w := s.imem.read s.pc.toNat
    let i := decode s.config.opMap w
    (∀ t, exec i s = .next t → step s = .next (t.pushHistory { pc := s.pc, word := w, instr := i })) ∧
    (∀ e, exec i s = .fault e → step s = .fault e)

/-- Stages 5 and 6 (R151): of a completed step, stage 5 increments `pc` where no branch or jump has updated it, unless the
PC-update mode is `halt`; stage 6 counts a cycle always and an instruction only for a valid word, and appends one record
to the bounded history. The record's fields are log 17 (R46, the spec's decision D20). Where a taken branch or a jump sets
`pc` is R221 and stated apart. -/
def Obligations.StagesFiveAndSixOfEveryStep : Prop :=
  ∀ s t : State, s.halted = false → step s = .next t →
    ∃ (w : Word) (i : Instr), i = decode s.config.opMap w ∧
      (s.pc.toNat < s.config.imSize → w = s.imem.read s.pc.toNat) ∧
      (isBranch i = false → isJump i = false → t.pc = if shouldHalt i then s.pc else s.pc + 1) ∧
      (∀ rs1 rs2 off, i = .beq rs1 rs2 off → s.readReg rs1 ≠ s.readReg rs2 → t.pc = s.pc + 1) ∧
      (∀ rs1 rs2 off, i = .bne rs1 rs2 off → s.readReg rs1 = s.readReg rs2 → t.pc = s.pc + 1) ∧
      t.cycles = s.cycles + 1 ∧
      t.instret = s.instret + (if i.mnemonic.valid then 1 else 0) ∧
      t.history = pushBounded 20 s.history { pc := s.pc, word := w, instr := i } ∧
      t.history.length ≤ 20

/-- The two bounded buffers (R46, R47), for entries of any type: an entry is appended while there is room, and then the
oldest is overwritten; the history has the bound 20, the diagnostic log the bound `LOG_BOUND`. That the model keeps the
buffers is log 16 and log 17 (the spec's decision D20 lets it leave them out). -/
def Obligations.BoundedBufferOverwritesOldest : Prop :=
  (∀ (α : Type) (bound : Nat) (xs : List α) (x : α),
    (pushBounded bound xs x).length ≤ bound ∧
    (xs.length < bound → pushBounded bound xs x = xs ++ [x]) ∧
    (xs.length = bound → 1 ≤ bound → pushBounded bound xs x = xs.tail ++ [x])) ∧
  (∀ (s : State) (r : HistoryRecord), (s.pushHistory r).history = pushBounded 20 s.history r) ∧
  (∀ (s : State) (e : Fault), (s.logError e).log = pushBounded s.config.logBound s.log e)

/-- A fetch out of range (R63): under the graceful policy the error is logged and the word 0 is executed like any other;
under the strict policy the step faults. Executing the substituted word is the spec's decision D24 (log 15), the aborted
step its decision D11 (log 12). -/
def Obligations.FetchOutOfRangeRunsZeroOrFaults : Prop :=
  ∀ s : State, s.halted = false → s.config.imSize ≤ s.pc.toNat →
    (s.config.strict = false → s.config.opMap = OpMap.standard →
      ∃ t, step s = .next t ∧ SameRegs s t ∧ SameData s t ∧ t.pc.toNat = (s.pc.toNat + 1) % 65536 ∧ Retired s t ∧
        t.flags = { z := true, n := false, v := false } ∧ t.halted = false ∧ t.imem = s.imem ∧
        ErrorRecorded (.fetchOutOfRange s.pc) s t) ∧
    (s.config.strict = true → step s = .fault (.fetchOutOfRange s.pc))

/-- Under the graceful policy every step completes (R262: "In graceful mode the simulation always completes or hits the
cycle budget"), whatever the state and the opcode map. -/
def Obligations.GracefulStepAlwaysCompletes : Prop :=
  ∀ s : State, s.config.strict = false → ∃ t, step s = .next t

/-- Under the strict policy a step faults exactly on a fetch out of range, a reserved opcode and a data access out of
range, in that order and with that information (R261, R263, R266); else it completes. The aborted step is the spec's
decision D11 (log 12), the data range its decision D5 (log 11). -/
def Obligations.StrictStepFaultsExactlyOnErrors : Prop :=
  ∀ s : State, s.config.strict = true → s.halted = false →
    let i := decode s.config.opMap (s.imem.read s.pc.toNat)
    (s.config.imSize ≤ s.pc.toNat → step s = .fault (.fetchOutOfRange s.pc)) ∧
    (s.pc.toNat < s.config.imSize → i.mnemonic.valid = false →
      step s = .fault (.invalidInstruction s.pc (s.imem.read s.pc.toNat))) ∧
    (∀ rd rs1 imm, s.pc.toNat < s.config.imSize → i = .lw rd rs1 imm →
      s.config.dmSize ≤ (effectiveAddress s rs1 imm).toNat →
      step s = .fault (.dataOutOfRange .read s.pc i (effectiveAddress s rs1 imm))) ∧
    (∀ rs2 rs1 off, s.pc.toNat < s.config.imSize → i = .sw rs2 rs1 off →
      s.config.dmSize ≤ (effectiveAddress s rs1 off).toNat →
      step s = .fault (.dataOutOfRange .write s.pc i (effectiveAddress s rs1 off))) ∧
    (s.pc.toNat < s.config.imSize → i.mnemonic.valid = true →
      (∀ rd rs1 imm, i = .lw rd rs1 imm → (effectiveAddress s rs1 imm).toNat < s.config.dmSize) →
      (∀ rs2 rs1 off, i = .sw rs2 rs1 off → (effectiveAddress s rs1 off).toNat < s.config.dmSize) →
      ∃ t, step s = .next t)

/-- `halted` (R32): HALT sets it, no other instruction changes it, a halted core stays as it is at every step, and only
reset clears it. The step of a halted core is the spec's decision D10 (log 13). -/
def Obligations.OnlyHaltSetsAndOnlyResetClearsHalted : Prop :=
  (∀ (i : Instr) (s t : State), exec i s = .next t → t.halted = (s.halted || decide (i = .halt))) ∧
  (∀ s : State, s.halted = true → step s = .next s) ∧
  (∀ s t : State, step s = .next t → s.halted = true → t.halted = true) ∧
  (∀ s : State, s.hostReset.halted = false)

/-! ### Memories -/

/-- No step writes Instruction Memory or `prog_len`; an instruction reads neither, and a step reads Instruction Memory at
`pc` only and `prog_len` nowhere (R36). That the host's reset keeps both is the spec's decision D9 (log 3). -/
def Obligations.InstructionMemoryIsReadOnlyInExecution : Prop :=
  (∀ s t : State, step s = .next t → t.imem = s.imem ∧ t.progLen = s.progLen) ∧
  (∀ s : State, s.hostReset.imem = s.imem ∧ s.hostReset.progLen = s.progLen) ∧
  (∀ (i : Instr) (s : State) (im : Memory) (n : Nat),
    exec i { s with imem := im, progLen := n } =
      Result.mapNext (fun t => { t with imem := im, progLen := n }) (exec i s)) ∧
  (∀ (s : State) (im : Memory) (n : Nat), im.read s.pc.toNat = s.imem.read s.pc.toNat →
    s.halted = false →
    step { s with imem := im, progLen := n } =
      Result.mapNext (fun t => { t with imem := im, progLen := n }) (step s))

/-- An in-range fetch gives the word load_program last wrote at the address, or 0, and has no side effect; no step and no
reset changes what it gives (R62). Where a loaded program stands, with 0 outside it, is the spec's decision D19 (log 18);
that creation gives 0 and that reset keeps the words is its decision D9 (log 3). -/
def Obligations.FetchGivesTheLoadedWord : Prop :=
  (∀ (s : State) (k : Word → State → Result), s.pc.toNat < s.config.imSize →
    fetch s k = k (s.imem.read s.pc.toNat) s) ∧
  (∀ (c : Config) (a : Nat), (State.create c).imem.read a = 0) ∧
  (∀ (words : List Word) (start : Nat) (s t : State), loadProgram words start s = .ok t →
    ∀ a : Nat, t.imem.read a = if start ≤ a ∧ a < start + words.length then words.getD (a - start) 0 else 0) ∧
  (∀ s t : State, step s = .next t → ∀ a : Nat, t.imem.read a = s.imem.read a) ∧
  (∀ (s : State) (a : Nat), s.hostReset.imem.read a = s.imem.read a)

/-- An access out of range gives 0 or changes nothing, whatever either memory holds, and is never reduced modulo the size;
so no value of another cell or of the other memory can come out, and none can be changed (R61). That LW and SW are out of
range iff `ea ≥ DM_SIZE` is the spec's decision D5 (log 11). -/
def Obligations.OutOfRangeAccessNeverAliases : Prop :=
  (∀ (c : Config) (m : Memory) (l : Nat) (v : Word), (l < c.dmBase ∨ c.dmBase + c.dmSize ≤ l) →
    readWord c m l = none ∧ writeWord c m l v = none ∧
    (c.strict = false → hostReadWord c m l = .ok 0 ∧ hostWriteWord c m l v = .ok (false, m))) ∧
  (∀ (s : State) (rd rs1 : RegIdx) (imm : BitVec 4) (dm im : Memory), s.config.strict = false →
    s.config.dmSize ≤ (effectiveAddress s rs1 imm).toNat →
    ∃ t, exec (.lw rd rs1 imm) { s with dmem := dm, imem := im } = .next t ∧
      t.readReg rd = 0 ∧ t.dmem = dm ∧ t.imem = im) ∧
  (∀ (s : State) (rs2 rs1 : RegIdx) (off : BitVec 4), s.config.strict = false →
    s.config.dmSize ≤ (effectiveAddress s rs1 off).toNat →
    ∃ t, exec (.sw rs2 rs1 off) s = .next t ∧ t.dmem = s.dmem ∧ t.imem = s.imem) ∧
  (∀ (s : State) (k : Word → State → Result), s.config.strict = false → s.config.imSize ≤ s.pc.toNat →
    fetch s k = k 0 (s.logError (.fetchOutOfRange s.pc)))

/-- R65, whole: the Data Memory block on logical addresses, in range and out of range, under both policies. The premise
on a write is the memory's canonical form, which every operation keeps. -/
def Obligations.DataMemoryBlockOnLogicalAddresses : Prop :=
  ∀ (c : Config) (m : Memory) (l : Nat) (v : Word), m.wf = true →
    (c.dmBase ≤ l → l < c.dmBase + c.dmSize →
      hostReadWord c m l = .ok (m.read (l - c.dmBase)) ∧
      ∃ m', hostWriteWord c m l v = .ok (true, m') ∧ m'.wf = true ∧
        ∀ a : Nat, m'.read a = if a = l - c.dmBase then v else m.read a) ∧
    ((l < c.dmBase ∨ c.dmBase + c.dmSize ≤ l) →
      (c.strict = false → hostReadWord c m l = .ok 0 ∧ hostWriteWord c m l v = .ok (false, m)) ∧
      (c.strict = true → hostReadWord c m l = .error .memoryFault ∧ hostWriteWord c m l v = .error .memoryFault))

/-- `DM_BASE` is invisible to programs (R66): the same step under another base differs in the base only. The translation
is the spec's decision D5 (log 11). -/
def Obligations.DataBaseIsInvisibleToPrograms : Prop :=
  ∀ (s : State) (base : Nat),
    step { s with config := { s.config with dmBase := base } } =
      Result.mapNext (fun t => { t with config := { t.config with dmBase := base } }) (step s)

/-- A load after a store (R75): at the same effective address it gives the stored value, elsewhere what was there. -/
def Obligations.LoadSeesTheMostRecentStore : Prop :=
  ∀ (s t : State) (rs2 rs1 rd rb : RegIdx) (off imm : BitVec 4), s.dmem.wf = true → rd ≠ 0 →
    (effectiveAddress s rs1 off).toNat < s.config.dmSize →
    exec (.sw rs2 rs1 off) s = .next t →
    (effectiveAddress t rb imm).toNat < s.config.dmSize →
    ∃ u, exec (.lw rd rb imm) t = .next u ∧
      u.readReg rd =
        if effectiveAddress t rb imm = effectiveAddress s rs1 off then s.readReg rs2
        else s.dmem.read (effectiveAddress t rb imm).toNat

/-! ### Invariants and whole-machine rules -/

/-- Every step from a state with the invariant gives a state with it (10_state.md R34, R36, R37, R46, R47;
60_exceptions.md R268). The memory form is log 4, the buffers log 16 and 17. -/
def Obligations.StepKeepsTheInvariant : Prop :=
  ∀ s t : State, s.Inv → step s = .next t → t.Inv

/-- The state after reset has the invariant, and so has the created state of every configuration. -/
def Obligations.ResetHasTheInvariant : Prop :=
  State.reset.Inv ∧ ∀ c : Config, (State.create c).Inv

/-- The host's reset and load_program keep the invariant. -/
def Obligations.HostOperationsKeepTheInvariant : Prop :=
  ∀ s : State, s.Inv → s.hostReset.Inv ∧
    ∀ (words : List Word) (start : Nat) (t : State), loadProgram words start s = .ok t → t.Inv

/-- Runs from two states that differ only in the flags, the counters, `prog_len`, the history, the log and the sticky
flag stay so and end alike: nothing an execution does depends on these (R30, R33, R34, R36, R46, R47). -/
def Obligations.RunsCannotObserveFlagsCountersOrDiagnostics : Prop :=
  ∀ (n : Nat) (s t : State), SameArch s t → SameArchOutcome (Sys2Proof.core.run n s) (Sys2Proof.core.run n t)

/-- The session's configuration never changes along a run (R35, the spec's decision D21, log 27), the counters never
fall and the sticky flag is never cleared. -/
def Obligations.RunsKeepConfigurationAndCountUp : Prop :=
  ∀ (n : Nat) (s t : State), Sys2Proof.core.run n s = .next t →
    t.config = s.config ∧ t.imem = s.imem ∧ s.cycles ≤ t.cycles ∧ t.cycles ≤ s.cycles + n ∧
    s.instret ≤ t.instret ∧ t.instret - s.instret ≤ t.cycles - s.cycles ∧
    (s.errorSeen = true → t.errorSeen = true)

/-- The control table against the meanings (R140 to R142, R148). The data path driven by an instruction's bundle, every one
of its signals read, with `alu_op` sent to the ALU as a code of any well-formed ALU-code map, is the meaning of every valid
instruction. And the table says what an instruction changes: no register where `reg_write` is 0, no flag where `alu_op` is
none, no data word where `mem_write` is 0, `pc + 1` where `pc_update` is increment, and `halted` set with `pc` kept where
it is halt. The table is the spec's derivation; the codes are its decision D3 (log 21). -/
def Obligations.ControlTableSaysWhatChanges : Prop :=
  (∀ (i : Instr) (s : State), i.mnemonic.valid = true → s.config.aluMap.wf = true →
    datapath (generateControlSignals i) i s = exec i s) ∧
  ∀ (i : Instr) (s t : State), exec i s = .next t →
    let c := generateControlSignals i
    (c.regWrite = false → SameRegs s t) ∧
    (c.aluOp = none → t.flags = s.flags) ∧
    (c.memWrite = false → SameData s t) ∧
    (c.pcUpdate = .increment → t.pc = s.pc + 1) ∧
    (c.pcUpdate = .halt → t.pc = s.pc ∧ t.halted = true) ∧
    (c.pcUpdate ≠ .halt → t.halted = s.halted)

/-- The predicates of the Control Unit (R143): which mnemonics they hold for. -/
def Obligations.ControlPredicatesNameTheirMnemonics : Prop :=
  ∀ i : Instr,
    (isBranch i = true ↔ i.mnemonic = .beq ∨ i.mnemonic = .bne) ∧
    (isJump i = true ↔ i.mnemonic = .jal) ∧
    (accessesMemory i = true ↔ i.mnemonic = .lw ∨ i.mnemonic = .sw) ∧
    (shouldHalt i = true ↔ i.mnemonic = .halt) ∧
    (i.mnemonic.valid = false → generateControlSignals i = safeBundle)

/-! ### Reset, load, run -/

/-- The values after reset and at creation (R55, R300, R301). The values other than the registers' are the spec's
decision D9 (log 3), the sizes in State.reset its reference configuration (log 2), the mark of a load the model's (log 18). -/
def Obligations.ResetLeavesTheSpecifiedValues : Prop :=
  (∀ s : State, let t := s.hostReset
    (∀ i : RegIdx, t.readReg i = 0) ∧ t.pc = 0 ∧ t.flags = { z := false, n := false, v := false } ∧
    t.halted = false ∧ t.cycles = 0 ∧ t.instret = 0 ∧ (∀ a : Nat, t.dmem.read a = 0) ∧
    t.history = [] ∧ t.log = [] ∧ t.errorSeen = false ∧
    t.imem = s.imem ∧ t.progLen = s.progLen ∧ t.loaded = false ∧ t.config = s.config) ∧
  (∀ (c : Config) (a : Nat), (State.create c).imem.read a = 0 ∧ (State.create c).progLen = 0 ∧
    (State.create c).hostReset = State.create c) ∧
  State.reset = State.create { imSize := 256, dmSize := 256, dmBase := 0, strict := false,
                               maxCyclesDefault := 10000, logBound := 64, opMap := OpMap.standard,
                               aluMap := AluMap.standard }

/-- load_program (R64) where the launch order allows it: when it fails and when it succeeds, and what it changes; elsewhere
it has no move. The details are the spec's decision D19 (log 18). -/
def Obligations.LoadProgramFailsOrReplacesTheProgram : Prop :=
  ∀ (words : List Word) (start : Nat) (s : State),
    (s.loadOpen = false →
      loadProgram words start s = .error .noMove ∧ loadProgramBool words start s = none) ∧
    (s.loadOpen = true → s.config.imSize ≤ start ∨ s.config.imSize < start + words.length →
      loadProgram words start s = .error (.failed .capacityExceeded) ∧
      loadProgramBool words start s = some (false, s)) ∧
    (s.loadOpen = true → start < s.config.imSize → start + words.length ≤ s.config.imSize →
      ∃ im : Memory,
        loadProgramBool words start s = some (true, { s with imem := im, progLen := words.length, loaded := true }) ∧
        im.wf = true ∧
        ∀ a : Nat, im.read a = if start ≤ a ∧ a < start + words.length then words.getD (a - start) 0 else 0)

/-- The launch order (R64, R303, U15): creation and reset allow a load; a load that succeeds, and a step that completes,
allow no further load. A second load with no step between is refused too (U15; log 18). -/
def Obligations.LoadsOnlyInTheLaunchOrder : Prop :=
  (∀ c : Config, (State.create c).loadOpen = true) ∧
  (∀ s : State, s.hostReset.loadOpen = true) ∧
  (∀ (words : List Word) (start : Nat) (s t : State), loadProgram words start s = .ok t →
    s.loadOpen = true ∧ t.loadOpen = false) ∧
  (∀ s t : State, step s = .next t → t.loadOpen = false)

/-- R157, whole: reset followed by load_program gives the same initial state from any two states of a session, and so
the same execution of any length. -/
def Obligations.LaunchIsRepeatable : Prop :=
  ∀ (words : List Word) (s₁ s₂ t₁ t₂ : State), s₁.config = s₂.config →
    launch words s₁ = .ok t₁ → launch words s₂ = .ok t₂ →
    t₁ = t₂ ∧ ∀ n : Nat, Sys2Proof.core.run n t₁ = Sys2Proof.core.run n t₂

/-- `run` (R155, the spec's decision D22, log 19), under both policies: a halted core returns true at once; where as many
plain steps complete, it finishes with their state and returns whether that is halted, as it always does under the graceful
policy; it stops with a fault exactly where some step within the budget faults, and passes on that fault, the first, with
the state it left; and it ends in no other way. -/
def Obligations.RunIsRepeatedStep : Prop :=
  ∀ (n : Nat) (s : State),
    (s.halted = true → run n s = .finished true s) ∧
    (s.config.strict = false → ∃ t, Sys2Proof.core.run n s = .next t ∧ run n s = .finished t.halted t) ∧
    (∀ (b : Bool) (t : State), run n s = .finished b t ↔ Sys2Proof.core.run n s = .next t ∧ b = t.halted) ∧
    (∀ (e : Fault) (u : State), run n s = .fault e u ↔
      ∃ k, k < n ∧ Sys2Proof.core.run k s = .next u ∧ step u = .fault e) ∧
    (∀ (e : Refusal) (u : State), run n s ≠ .refused e u)

/-! ### The program file and the assembler -/

/-- The program file (R70, R117): two bytes a word, low byte first, and reading it back gives the words. -/
def Obligations.ProgramFileRoundTrip : Prop :=
  ∀ words : List Word,
    deserialise (serialise words) = some words ∧ (serialise words).length = 2 * words.length ∧
    ∀ k : Nat, k < words.length →
      ((serialise words).getD (2 * k) 0).toNat = (words.getD k 0).toNat % 256 ∧
      ((serialise words).getD (2 * k + 1) 0).toNat = (words.getD k 0).toNat / 256

/-- The assembler's label offsets match the core (R114, R221): a branch or jump to a label within reach, executed at its
own address, goes to the label's address. -/
def Obligations.LabelOffsetsReachTheirLabels : Prop :=
  ∀ (s : State) (a : Nat) (rs1 rs2 rd : RegIdx), a < 65536 →
    (-8 ≤ (a : Int) - s.pc.toNat → (a : Int) - s.pc.toNat ≤ 7 →
      (s.readReg rs1 = s.readReg rs2 →
        ∃ t, exec (.beq rs1 rs2 (labelField 4 a s.pc.toNat)) s = .next t ∧ t.pc.toNat = a) ∧
      (s.readReg rs1 ≠ s.readReg rs2 →
        ∃ t, exec (.bne rs1 rs2 (labelField 4 a s.pc.toNat)) s = .next t ∧ t.pc.toNat = a)) ∧
    (-128 ≤ (a : Int) - s.pc.toNat → (a : Int) - s.pc.toNat ≤ 127 →
      ∃ t, exec (.jal rd (labelField 8 a s.pc.toNat)) s = .next t ∧ t.pc.toNat = a)

/-- Pass 2 (R112, R113, R116). Where it does not refuse, its words are, in order, the encodings of the lines that give an
instruction, its failures, in order, the numbers of the lines that fail, and there is no other line; every word is the
encoding of a well-formed instruction. A line with a bad label gives none (log 24). It refuses only for a line that is
refused, the first (log 34). And every instruction the opcode map defines is what its own source line gives, with the registers
under their plain or their ABI names (log 22) and numeric operands in decimal (the spec's decision D17, log 23). -/
def Obligations.EveryLineGivesAWordOrAFailure : Prop :=
  ∀ (m : OpMap) (labels : LabelTable),
    (∀ (lines : List PlacedLine) (words : List Word) (bad : List (Nat × ErrorKind)),
      encodeLines m labels lines = .ok (words, bad) →
      words = (lines.filterMap fun l => (encodeLine m labels l).toOption).map (encode m) ∧
      bad = (lines.filter fun l => decide (encodeLine m labels l = .error .invalidOperand)).map
        (fun l => (l.number, ErrorKind.invalidOperand)) ∧
      words.length + bad.length = lines.length ∧
      (∀ w ∈ words, ∃ i : Instr, i.wellFormed m = true ∧ i.mnemonic.valid = true ∧ w = encode m i)) ∧
    (∀ (lines : List PlacedLine) (r : AsmRefusal), encodeLines m labels lines = .error r ↔
      ∃ (before after : List PlacedLine) (l : PlacedLine), lines = before ++ l :: after ∧
        encodeLine m labels l = .error (.refuse r) ∧
        ∀ p ∈ before, ∀ q, encodeLine m labels p ≠ .error (.refuse q)) ∧
    (∀ (l : PlacedLine) (i : Instr), l.badLabel = true → encodeLine m labels l ≠ .ok i) ∧
    (∀ (i : Instr) (number address : Nat), ∀ names ∈ [plainNames, abiNames],
      i.mnemonic.valid = true → i.wellFormed m = true →
      encodeLine m labels
        { number := number, address := address, text := sourceLine names i, badLabel := false } = .ok i)

/-- Pass 1 (R111, R116). Line `k` stands at `addr` plus the number of the earlier lines that hold an instruction. Pass 1
refuses exactly for the first usable label that is already recorded or stands on an earlier line (U16, log 24). Where no
usable label of the lines repeats or is already recorded it answers the recorded labels, each usable label of a line added
with its line's address, in order; and, in order, each line that holds an instruction or has a bad label, with its number,
its address and its text, marked to fail where the label is bad. -/
def Obligations.PassOneRefusesDuplicateLabelsOnly : Prop :=
  ∀ (lines : List (List Char)) (number addr : Nat) (labels : LabelTable),
    let line := fun k => lines.getD k []
    let place := fun k => addr + ((lines.take k).filter lineHoldsInstr).length
    let fresh := fun k => ((lines.take k).filterMap lineLabel).Nodup ∧
      ∀ l ∈ (lines.take k).filterMap lineLabel, l ∉ labels.map Prod.fst
    (∀ r, scan lines number addr labels = .error r ↔
      ∃ k l, k < lines.length ∧ lineLabel (line k) = some l ∧ r = .duplicateLabel l ∧ fresh k ∧
        (l ∈ labels.map Prod.fst ∨ l ∈ (lines.take k).filterMap lineLabel)) ∧
    (fresh lines.length →
      scan lines number addr labels = .ok
        (labels ++ (List.range lines.length).filterMap (fun k => (lineLabel (line k)).map (fun l => (l, place k))),
         ((List.range lines.length).filter (fun k => lineHoldsInstr (line k) || lineLabelBad (line k))).map
           (fun k => placeLine (line k) (number + k) (place k))))
end

