-- ==== Sys2Proof/Laws/Word.lean ====
section
/-! SUPPORT. The arithmetic of words, fields and targets, pushed down to Nat, Int and BitVec. -/

namespace Sys2Proof.Machine

theorem toNat_mask16 (v : Int) : ((mask16 v).toNat : Int) = v % 65536 := by
  simp only [mask16, BitVec.toNat_ofInt]
  omega

theorem toNat_mask16_natCast (n : Nat) : (mask16 (n : Int)).toNat = n % 65536 := by
  have h := toNat_mask16 n
  omega

theorem mask16_natCast (n : Nat) : mask16 (n : Int) = BitVec.ofNat 16 n := by
  apply BitVec.eq_of_toNat_eq
  rw [toNat_mask16_natCast, BitVec.toNat_ofNat]

theorem mask16_toNat (w : Word) : mask16 (w.toNat : Int) = w := by
  rw [mask16_natCast, BitVec.ofNat_toNat, BitVec.setWidth_eq]

theorem nextPc_eq (pc : Word) : nextPc pc = pc + 1 := by
  apply BitVec.eq_of_toNat_eq
  have h := toNat_mask16 ((pc.toNat : Int) + 1)
  have h1 : (pc + 1).toNat = (pc.toNat + 1) % 65536 := BitVec.toNat_add pc 1
  rw [h1, nextPc]
  omega

theorem toNat_nextPc (pc : Word) : (nextPc pc).toNat = (pc.toNat + 1) % 65536 := by
  rw [nextPc_eq, BitVec.toNat_add]
  rfl

theorem toNat_zext16 {n : Nat} (h : n ≤ 16) (f : BitVec n) : (zext16 f).toNat = f.toNat := by
  have hf := f.isLt
  have hp : 2 ^ n ≤ 2 ^ 16 := Nat.pow_le_pow_right (by decide) h
  rw [zext16, toNat_mask16_natCast, Nat.mod_eq_of_lt (by omega)]

theorem signedValue_eq_toInt4 (f : BitVec 4) : signedValue f = f.toInt := by
  simp only [signedValue, BitVec.toInt]
  split <;> split <;> omega

theorem signedValue_eq_toInt8 (f : BitVec 8) : signedValue f = f.toInt := by
  simp only [signedValue, BitVec.toInt]
  split <;> split <;> omega

theorem toNat_effectiveAddress (s : State) (rs1 : RegIdx) (off : BitVec 4) :
    (effectiveAddress s rs1 off).toNat = ((s.readReg rs1).toNat + off.toNat) % 65536 := by
  have h := toNat_mask16_natCast ((s.readReg rs1).toNat + (zext16 off).toNat)
  rw [toNat_zext16 (by decide)] at h
  rw [effectiveAddress, toNat_zext16 (by decide)]
  exact_mod_cast h

theorem toNat_branchTarget {n : Nat} (pc : Word) (off : BitVec n) :
    ((branchTarget pc off).toNat : Int) = (pc.toNat + signedValue off) % 65536 := toNat_mask16 _

end Sys2Proof.Machine
end

