-- ==== Sys2Proof/Laws/Alu.lean ====
section
/-! SUPPORT. The ALU's results and flags (41_alu.md R172, R174). -/

namespace Sys2Proof.Machine

/-- The code of an operation selects it under every well-formed ALU-code map (R171). -/
theorem AluMap.opOf_codeOf {m : AluMap} (h : m.wf = true) (op : AluOp) : m.opOf (m.codeOf op) = some op := by
  have hm : some op ∈ m.slots.toList := by
    simp only [AluMap.wf, AluOp.all, Bool.and_eq_true, List.all_cons, List.contains_iff_mem] at h
    cases op <;> simp_all
  have hlt : m.slots.toList.idxOf (some op) < m.slots.toList.length := List.idxOf_lt_length_iff.2 hm
  have h8 : m.slots.toList.length = 8 := by simp
  have hc : (m.codeOf op).toNat = m.slots.toList.idxOf (some op) := by
    simp only [AluMap.codeOf, BitVec.toNat_ofNat]
    omega
  have hget : m.slots.toList[m.slots.toList.idxOf (some op)] = some op := List.getElem_idxOf hlt
  simp only [AluMap.opOf, hc]
  rw [Vector.getElem_toList] at hget
  exact hget

/-- The ALU's call with an operation's code gives the operation's result and flags (R170). -/
theorem aluExecute_codeOf {m : AluMap} (h : m.wf = true) (a b : Word) (op : AluOp) :
    aluExecute m a b (m.codeOf op) = some (aluResult op a b, aluFlags op a b) := by
  rw [aluExecute, AluMap.opOf_codeOf h]
  rfl

theorem aluResult_add (a b : Word) : aluResult .add a b = a + b := by
  apply BitVec.eq_of_toNat_eq
  have h := toNat_mask16 ((a.toNat : Int) + b.toNat)
  rw [BitVec.toNat_add, aluResult]
  omega

theorem aluResult_sub (a b : Word) : aluResult .sub a b = a - b := by
  apply BitVec.eq_of_toNat_eq
  have h := toNat_mask16 ((a.toNat : Int) - b.toNat)
  have ha := a.isLt
  have hb := b.isLt
  rw [BitVec.toNat_sub, aluResult]
  omega

theorem aluResult_eq_one (a b : Word) : aluResult .eq a b = 1 ↔ a = b := by
  rw [aluResult]
  split <;> simp_all

theorem aluResult_ne_one (a b : Word) : aluResult .ne a b = 1 ↔ a ≠ b := by
  rw [aluResult]
  split <;> simp_all

/-- The flags of EQ: `Z` is the complement of the result, `N` and `V` are 0 (R172). -/
theorem aluFlags_eq (a b : Word) :
    aluFlags .eq a b = { z := decide (a ≠ b), n := false, v := false } := by
  simp only [aluFlags, aluResult, aluOverflow]
  by_cases h : a = b <;> simp [h]

/-- The flags of NE (R172). -/
theorem aluFlags_ne (a b : Word) :
    aluFlags .ne a b = { z := decide (a = b), n := false, v := false } := by
  simp only [aluFlags, aluResult, aluOverflow]
  by_cases h : a = b <;> simp [h]

end Sys2Proof.Machine
end

