-- ==== Sys2Proof/Laws/Assembler.lean ====
section
/-! SUPPORT. What the assembler's passes can answer: the tokens of a line, the operand parsing, the instruction of a
line, a line of pass 1, and the value of a label's field (30_encoding.md R110 to R116). -/

namespace Sys2Proof.Machine

/-- Two steps of parsing that succeed together succeed one after the other. -/
theorem bind_ok {α β ε : Type} {x : Except ε α} {f : α → Except ε β} {b : β} (h : (x >>= f) = .ok b) :
    ∃ a, x = .ok a ∧ f a = .ok b := by
  cases x with
  | error e => cases h
  | ok a => exact ⟨a, rfl, h⟩

theorem parseRegs3_ok {mk : RegIdx → RegIdx → RegIdx → Instr} {a b c : List Char} {i : Instr}
    (h : parseRegs3 mk a b c = .ok i) : ∃ rd rs1 rs2, i = mk rd rs1 rs2 := by
  obtain ⟨rd, _, h⟩ := bind_ok h
  obtain ⟨rs1, _, h⟩ := bind_ok h
  obtain ⟨rs2, _, h⟩ := bind_ok h
  cases h
  exact ⟨rd, rs1, rs2, rfl⟩

theorem parseBranch_ok {mk : RegIdx → RegIdx → BitVec 4 → Instr} {labels : LabelTable} {current : Nat}
    {a b c : List Char} {i : Instr} (h : parseBranch mk labels current a b c = .ok i) :
    ∃ rs1 rs2 off, i = mk rs1 rs2 off := by
  obtain ⟨rs1, _, h⟩ := bind_ok h
  obtain ⟨rs2, _, h⟩ := bind_ok h
  obtain ⟨off, _, h⟩ := bind_ok h
  cases h
  exact ⟨rs1, rs2, off, rfl⟩

/-- What the operands of a mnemonic give is an instruction of that mnemonic, never a reserved row. -/
theorem parseOperands_ok {labels : LabelTable} {current : Nat} {k : Mnemonic} {ops : List (List Char)} {i : Instr}
    (h : parseOperands labels current k ops = .ok i) : i.mnemonic = k ∧ k.valid = true := by
  unfold parseOperands at h
  split at h
  case h_6 =>
    obtain ⟨_, _, h⟩ := bind_ok h
    obtain ⟨_, _, h⟩ := bind_ok h
    obtain ⟨_, _, h⟩ := bind_ok h
    cases h
    exact ⟨rfl, rfl⟩
  case h_7 | h_8 | h_11 =>
    obtain ⟨_, _, h⟩ := bind_ok h
    obtain ⟨_, _, h⟩ := bind_ok h
    cases h
    exact ⟨rfl, rfl⟩
  case h_9 | h_10 =>
    obtain ⟨_, _, _, rfl⟩ := parseBranch_ok h
    exact ⟨rfl, rfl⟩
  case h_12 | h_13 =>
    cases h
    exact ⟨rfl, rfl⟩
  case h_14 => cases h
  all_goals
    obtain ⟨_, _, _, rfl⟩ := parseRegs3_ok h
    exact ⟨rfl, rfl⟩

/-- A line whose name is a mnemonic that the opcode map defines gives what its operands give. -/
theorem assembleTokens_of_name {m : OpMap} {labels : LabelTable} {current : Nat} {name : List Char} {k : Mnemonic}
    {ops : List (List Char)} (hn : mnemonicOfName (lower name) = some k) (hd : m.defines k = true) :
    assembleTokens m labels current (name :: ops) = parseOperands labels current k ops := by
  simp only [assembleTokens, hn, hd, if_true]

/-- What a line gives is a well-formed instruction, never a reserved row. -/
theorem assembleTokens_ok {m : OpMap} {labels : LabelTable} {current : Nat} {ts : List (List Char)} {i : Instr}
    (h : assembleTokens m labels current ts = .ok i) : i.wellFormed m = true ∧ i.mnemonic.valid = true := by
  unfold assembleTokens at h
  split at h
  · cases h
  · split at h
    · split at h
      · rename_i hd
        obtain ⟨rfl, hv⟩ := parseOperands_ok h
        refine ⟨?_, hv⟩
        cases i <;> first | exact hd | cases hv
      · cases h
    · cases h

/-- A placed line gives an instruction only where its label is not bad, and then a well-formed one. -/
theorem encodeLine_ok {m : OpMap} {labels : LabelTable} {l : PlacedLine} {i : Instr}
    (h : encodeLine m labels l = .ok i) :
    l.badLabel = false ∧ i.wellFormed m = true ∧ i.mnemonic.valid = true := by
  unfold encodeLine at h
  split at h
  · rename_i hi
    split at h
    · cases h
    · rename_i hb
      cases h
      exact ⟨by simpa using hb, assembleTokens_ok hi⟩
  · cases h

/-! ### Tokens -/

theorem splitAll_of_none {p : Char → Bool} {t : List Char} (ht : t.all (fun c => !p c) = true) : splitAll p t = [t] := by
  induction t with
  | nil => rfl
  | cons d ds ih =>
    simp only [List.all_cons, Bool.and_eq_true, Bool.not_eq_true'] at ht
    simp [splitAll, ht.1, ih ht.2]

theorem splitAll_append {p : Char → Bool} {t rest : List Char} {c : Char} (ht : t.all (fun c => !p c) = true)
    (hc : p c = true) : splitAll p (t ++ c :: rest) = t :: splitAll p rest := by
  induction t with
  | nil => simp [splitAll, hc]
  | cons d ds ih =>
    simp only [List.all_cons, Bool.and_eq_true, Bool.not_eq_true'] at ht
    simp [splitAll, ht.1, ih ht.2]

/-- A text that is one token. -/
def isToken (t : List Char) : Bool := !t.isEmpty && t.all (fun c => !isSeparator c)

theorem tokens_token {t : List Char} (h : isToken t = true) : tokens t = [t] := by
  simp only [isToken, Bool.and_eq_true] at h
  simp only [tokens, splitAll_of_none h.2, List.filter, h.1]

theorem tokens_append {t rest : List Char} {c : Char} (h : isToken t = true) (hc : isSeparator c = true) :
    tokens (t ++ c :: rest) = t :: tokens rest := by
  simp only [isToken, Bool.and_eq_true] at h
  simp only [tokens, splitAll_append h.2 hc, List.filter, h.1]

theorem tokens_separator {rest : List Char} {c : Char} (hc : isSeparator c = true) : tokens (c :: rest) = tokens rest := by
  simp [tokens, splitAll, hc]

theorem tokens_line2 {n a b : List Char} (hn : isToken n = true) (ha : isToken a = true) (hb : isToken b = true) :
    tokens (line2 n a b) = [n, a, b] := by
  simp only [line2, List.append_assoc, List.cons_append]
  rw [tokens_append hn (by decide), tokens_append ha (by decide), tokens_separator (by decide), tokens_token hb]

theorem tokens_line3 {n a b c : List Char} (hn : isToken n = true) (ha : isToken a = true) (hb : isToken b = true)
    (hc : isToken c = true) : tokens (line3 n a b c) = [n, a, b, c] := by
  simp only [line3, List.append_assoc, List.cons_append]
  rw [tokens_append hn (by decide), tokens_append ha (by decide), tokens_separator (by decide),
    tokens_append hb (by decide), tokens_separator (by decide), tokens_token hc]

/-! ### A line of pass 1 -/

theorem lookup_isSome_iff (labels : LabelTable) (l : List Char) :
    (labels.lookup l).isSome = true ↔ l ∈ labels.map Prod.fst := by
  induction labels with
  | nil => simp
  | cons p rest ih =>
    rw [List.lookup_cons, List.map_cons, List.mem_cons, ← ih]
    by_cases h : l = p.1
    · simp [h]
    · rw [beq_false_of_ne h]
      simp [h]

/-- A line whose usable label is recorded already ends pass 1. -/
theorem scan_cons_duplicate {line l : List Char} {rest : List (List Char)} {number addr : Nat} {labels : LabelTable}
    (h : lineLabel line = some l) (hd : l ∈ labels.map Prod.fst) :
    scan (line :: rest) number addr labels = .error (.duplicateLabel l) := by
  simp [scan, h, (lookup_isSome_iff labels l).2 hd]

/-- Any other line records its label, advances the address if it holds an instruction, and is placed for pass 2 if it
holds one or is to fail. -/
theorem scan_cons_fresh {line : List Char} {rest : List (List Char)} {number addr : Nat} {labels : LabelTable}
    (h : ∀ l, lineLabel line = some l → l ∉ labels.map Prod.fst) :
    scan (line :: rest) number addr labels =
      (scan rest (number + 1) (if lineHoldsInstr line then addr + 1 else addr)
        (labels ++ ((lineLabel line).map (fun l => (l, addr))).toList)).map fun p =>
          (p.1, if lineHoldsInstr line || lineLabelBad line then placeLine line number addr :: p.2 else p.2) := by
  have place : ∀ R : Except AsmRefusal (LabelTable × List PlacedLine),
      (match R with
        | .error r => Except.error r
        | .ok (final, lines) =>
          if lineHoldsInstr line || lineLabelBad line then .ok (final, placeLine line number addr :: lines)
          else .ok (final, lines)) =
      R.map fun p =>
        (p.1, if lineHoldsInstr line || lineLabelBad line then placeLine line number addr :: p.2 else p.2) := by
    rintro (r | ⟨final, lines⟩)
    · rfl
    · dsimp only
      split <;> simp_all [Except.map]
  rw [scan]
  cases hl : lineLabel line with
  | none =>
    simp only [Option.map_none, Option.toList_none, List.append_nil]
    exact place _
  | some l =>
    have hn := h l hl
    rw [← lookup_isSome_iff, Bool.not_eq_true] at hn
    simp only [hn, Option.map_some, Option.toList_some]
    exact place _

/-! ### Label offsets -/

/-- A label in reach of a branch has its distance as the field's signed value. -/
theorem signedValue_labelField4 {a p : Nat} (h1 : -8 ≤ (a : Int) - p) (h2 : (a : Int) - p ≤ 7) :
    signedValue (labelField 4 a p) = a - p := by
  rw [signedValue_eq_toInt4, labelField, BitVec.toInt_ofInt, Int.bmod_def]
  omega

/-- A label in reach of a jump has its distance as the field's signed value. -/
theorem signedValue_labelField8 {a p : Nat} (h1 : -128 ≤ (a : Int) - p) (h2 : (a : Int) - p ≤ 127) :
    signedValue (labelField 8 a p) = a - p := by
  rw [signedValue_eq_toInt8, labelField, BitVec.toInt_ofInt, Int.bmod_def]
  omega

end Sys2Proof.Machine
end

