-- ==== Sys2Proof/Laws/Buffers.lean ====
section
/-! SUPPORT. The bounded buffers (10_state.md R46, R47). -/

namespace Sys2Proof.Machine

theorem length_pushBounded {α : Type} (bound : Nat) (xs : List α) (x : α) :
    (pushBounded bound xs x).length = min bound (xs.length + 1) := by
  simp [pushBounded]

theorem length_pushBounded_le {α : Type} (bound : Nat) (xs : List α) (x : α) :
    (pushBounded bound xs x).length ≤ bound := by
  rw [length_pushBounded]
  exact Nat.min_le_left _ _

theorem pushBounded_ne_nil {α : Type} {bound : Nat} (h : 1 ≤ bound) (xs : List α) (x : α) :
    pushBounded bound xs x ≠ [] := by
  intro e
  have := length_pushBounded bound xs x
  rw [e, List.length_nil] at this
  omega

/-- With room left the buffer grows by the new entry. -/
theorem pushBounded_of_lt {α : Type} {bound : Nat} {xs : List α} (h : xs.length < bound) (x : α) :
    pushBounded bound xs x = xs ++ [x] := by
  rw [pushBounded, List.take_of_length_le (by simp; omega), List.reverse_reverse]

/-- A full buffer of positive capacity loses its oldest entry. -/
theorem pushBounded_of_full {α : Type} {bound : Nat} {y : α} {xs : List α} (h : (y :: xs).length = bound) (x : α) :
    pushBounded bound (y :: xs) x = xs ++ [x] := by
  subst h
  simp [pushBounded]

end Sys2Proof.Machine
end

