-- ==== Sys2Proof/Laws/Decode.lean ====
section
/-! SUPPORT. The fields of a packed word, and the opcode map (30_encoding.md R91, R92). -/

namespace Sys2Proof

theorem toNat_packFields (op a b c : BitVec 4) :
    (packFields op a b c).toNat = op.toNat * 4096 + a.toNat * 256 + b.toNat * 16 + c.toNat := by
  have ha := a.isLt
  have hb := b.isLt
  have hc := c.isLt
  simp only [packFields, BitVec.toNat_append]
  rw [← Nat.shiftLeft_add_eq_or_of_lt hc, ← Nat.shiftLeft_add_eq_or_of_lt hb, ← Nat.shiftLeft_add_eq_or_of_lt ha]
  simp only [Nat.shiftLeft_eq]
  omega

theorem toNat_opcodeField (w : Word) : (opcodeField w).toNat = w.toNat / 4096 := by
  have := w.isLt
  simp only [opcodeField, BitVec.extractLsb'_toNat, Nat.shiftRight_eq_div_pow]
  omega

theorem val_regField (w : Word) (lo : Nat) : (regField w lo).val = w.toNat / 2 ^ lo % 16 := by
  simp [regField, Nat.shiftRight_eq_div_pow]

theorem toNat_imm4Field (w : Word) : (imm4Field w).toNat = w.toNat % 16 := by
  simp [imm4Field]

theorem toNat_imm8Field (w : Word) : (imm8Field w).toNat = w.toNat % 256 := by
  simp [imm8Field]

@[simp] theorem toNat_regBits (r : RegIdx) : (regBits r).toNat = r.val := by
  have := r.isLt
  simp only [regBits, BitVec.toNat_ofNat]
  omega

@[simp] theorem opcodeField_pack (op a b c : BitVec 4) : opcodeField (packFields op a b c) = op := by
  apply BitVec.eq_of_toNat_eq
  have ha := a.isLt
  have hb := b.isLt
  have hc := c.isLt
  rw [toNat_opcodeField, toNat_packFields]
  omega

@[simp] theorem regField_pack_8 (op b c : BitVec 4) (r : RegIdx) : regField (packFields op (regBits r) b c) 8 = r := by
  apply Fin.ext
  have ha := r.isLt
  have hb := b.isLt
  have hc := c.isLt
  rw [val_regField, toNat_packFields, toNat_regBits]
  omega

@[simp] theorem regField_pack_4 (op a c : BitVec 4) (r : RegIdx) : regField (packFields op a (regBits r) c) 4 = r := by
  apply Fin.ext
  have ha := a.isLt
  have hb := r.isLt
  have hc := c.isLt
  rw [val_regField, toNat_packFields, toNat_regBits]
  omega

@[simp] theorem regField_pack_0 (op a b : BitVec 4) (r : RegIdx) : regField (packFields op a b (regBits r)) 0 = r := by
  apply Fin.ext
  have hc := r.isLt
  rw [val_regField, toNat_packFields, toNat_regBits]
  omega

@[simp] theorem imm4Field_pack (op a b c : BitVec 4) : imm4Field (packFields op a b c) = c := by
  apply BitVec.eq_of_toNat_eq
  have hc := c.isLt
  rw [toNat_imm4Field, toNat_packFields]
  omega

@[simp] theorem imm8Field_pack (op a : BitVec 4) (o : BitVec 8) :
    imm8Field (packFields op a (o.extractLsb' 4 4) (o.extractLsb' 0 4)) = o := by
  apply BitVec.eq_of_toNat_eq
  have ho := o.isLt
  rw [toNat_imm8Field, toNat_packFields]
  simp only [BitVec.extractLsb'_toNat, Nat.shiftRight_eq_div_pow]
  omega

/-- The opcode of a row the map defines selects that row. -/
theorem OpMap.slot_codeOf {m : OpMap} {k : Mnemonic} (h : m.defines k = true) : m.slot (m.codeOf k) = k := by
  have hk : k ∈ m.slots.toList := by simpa [OpMap.defines] using h
  have hlt : m.slots.toList.idxOf k < m.slots.toList.length := List.idxOf_lt_length_iff.2 hk
  have h16 : m.slots.toList.length = 16 := by simp
  have hmod : (m.codeOf k).toNat = m.slots.toList.idxOf k := by
    simp only [OpMap.codeOf, BitVec.toNat_ofNat]
    omega
  have hget : m.slots.toList[m.slots.toList.idxOf k] = k := List.getElem_idxOf hlt
  simp only [OpMap.slot, hmod]
  rw [Vector.getElem_toList] at hget
  exact hget

/-- A row some opcode selects is defined. -/
theorem OpMap.defines_slot (m : OpMap) (op : BitVec 4) : m.defines (m.slot op) = true := by
  simp only [OpMap.defines, OpMap.slot, List.contains_iff_mem]
  simp

/-- Under a well-formed map an instruction stands at one opcode only. -/
theorem OpMap.codeOf_slot {m : OpMap} (hm : m.wf = true) {op : BitVec 4} (hv : (m.slot op).valid = true) :
    m.codeOf (m.slot op) = op := by
  have hw : ∀ p q : BitVec 4, m.slot p = m.slot q → (m.slot p).valid = true → p = q := by
    simpa only [OpMap.wf, decide_eq_true_eq] using hm
  have hs := OpMap.slot_codeOf (m.defines_slot op)
  exact hw _ _ hs (by rw [hs]; exact hv)

/-- A word is its four fields. -/
theorem packFields_fields (w : Word) :
    packFields (opcodeField w) (w.extractLsb' 8 4) (w.extractLsb' 4 4) (w.extractLsb' 0 4) = w := by
  apply BitVec.eq_of_toNat_eq
  have := w.isLt
  rw [toNat_packFields, toNat_opcodeField]
  simp only [BitVec.extractLsb'_toNat, Nat.shiftRight_eq_div_pow]
  omega

@[simp] theorem regBits_regField (w : Word) (lo : Nat) : regBits (regField w lo) = w.extractLsb' lo 4 := by
  apply BitVec.eq_of_toNat_eq
  rw [toNat_regBits]
  rfl

end Sys2Proof
end

