-- ==== Sys2Proof/Laws/Memory.lean ====
section
/-! SUPPORT. Memory: reads after writes, and that every memory operation keeps the canonical form. -/

namespace Sys2Proof.Machine

@[simp] theorem Memory.read_nil (a : Nat) : Memory.read [] a = 0 := rfl

/-- Every listed address of the memory is above `k`. -/
abbrev Memory.above (k : Nat) (m : Memory) : Prop := ∀ c ∈ m, k < c.1

theorem Memory.wf_cons {a : Nat} {v : Word} {m : Memory} :
    Memory.wf ((a, v) :: m) = true ↔ v ≠ 0 ∧ Memory.above a m ∧ Memory.wf m = true := by
  simp [Memory.wf, Memory.unlisted, and_assoc]

theorem Memory.read_of_above {k : Nat} {m : Memory} (h : Memory.above k m) {a : Nat} (ha : a ≤ k) :
    Memory.read m a = 0 := by
  induction m with
  | nil => rfl
  | cons c m ih =>
    obtain ⟨b, w⟩ := c
    have hb : k < b := h (b, w) (by simp)
    have hne : a ≠ b := by omega
    simp only [Memory.read, if_neg hne]
    exact ih fun c hc => h c (by simp [hc])

/-- A cell of a written memory is the one written or an old one. -/
theorem Memory.mem_write {m : Memory} {a : Nat} {v : Word} {c : WordCell} (h : c ∈ Memory.write m a v) :
    c = (a, v) ∨ c ∈ m := by
  induction m with
  | nil =>
    simp only [Memory.write] at h
    split at h <;> simp_all
  | cons d m ih =>
    obtain ⟨b, w⟩ := d
    simp only [Memory.write] at h
    split_ifs at h
    · exact .inr h
    · exact List.mem_cons.1 h
    · exact .inr (List.mem_cons_of_mem _ h)
    · rcases List.mem_cons.1 h with rfl | h
      · exact .inl rfl
      · exact .inr (List.mem_cons_of_mem _ h)
    · rcases List.mem_cons.1 h with rfl | h
      · exact .inr List.mem_cons_self
      · exact (ih h).imp_right (List.mem_cons_of_mem _)

theorem Memory.above_write {k : Nat} {m : Memory} {a : Nat} (v : Word) (h : Memory.above k m) (ha : k < a) :
    Memory.above k (Memory.write m a v) := fun c hc => by
  rcases Memory.mem_write hc with rfl | hc
  · exact ha
  · exact h c hc

theorem Memory.within_iff {m : Memory} {n : Nat} : Memory.within m n = true ↔ ∀ c ∈ m, c.1 < n := by
  simp [Memory.within]

/-- A write below the size keeps the listed addresses below it. -/
theorem Memory.within_write {m : Memory} {n : Nat} (h : Memory.within m n = true) {a : Nat} (ha : a < n) (v : Word) :
    Memory.within (Memory.write m a v) n = true := by
  rw [Memory.within_iff] at h ⊢
  intro c hc
  rcases Memory.mem_write hc with rfl | hc
  · exact ha
  · exact h c hc

/-- A write keeps the canonical form. -/
theorem Memory.wf_write {m : Memory} (h : Memory.wf m = true) (a : Nat) (v : Word) :
    Memory.wf (Memory.write m a v) = true := by
  induction m with
  | nil =>
    simp only [Memory.write]
    split
    · rfl
    · rename_i hv
      exact Memory.wf_cons.2 ⟨hv, by simp [Memory.above], rfl⟩
  | cons c m ih =>
    obtain ⟨b, w⟩ := c
    obtain ⟨hw, hab, hm⟩ := Memory.wf_cons.1 h
    simp only [Memory.write]
    split_ifs with h1 h2 h3 h4
    · exact h
    · refine Memory.wf_cons.2 ⟨h2, fun c hc => ?_, h⟩
      rcases List.mem_cons.1 hc with rfl | hc
      · exact h1
      · exact Nat.lt_trans h1 (hab c hc)
    · exact hm
    · subst h3
      exact Memory.wf_cons.2 ⟨h4, hab, hm⟩
    · exact Memory.wf_cons.2 ⟨hw, Memory.above_write v hab (by omega), ih hm⟩

/-- A read after a write: the value at the address written, elsewhere as before. -/
theorem Memory.read_write {m : Memory} (h : Memory.wf m = true) (a b : Nat) (v : Word) :
    Memory.read (Memory.write m a v) b = if b = a then v else Memory.read m b := by
  induction m with
  | nil =>
    simp only [Memory.write]
    split <;> simp_all [Memory.read, Memory.unlisted]
  | cons c m ih =>
    obtain ⟨k, w⟩ := c
    obtain ⟨hw, hab, hm⟩ := Memory.wf_cons.1 h
    simp only [Memory.write]
    split_ifs with h1 h2 h3 h4 h5 h6 h7 h8 h9
    · subst h3
      rw [h2, Memory.read, if_neg (by omega), Memory.read_of_above hab (by omega)]; rfl
    · rfl
    · subst h4; simp [Memory.read]
    · simp [Memory.read, h4]
    · subst h5; subst h7
      rw [h6, Memory.read_of_above hab (Nat.le_refl _)]; rfl
    · subst h5
      simp [Memory.read, h7]
    · subst h5; subst h8; simp [Memory.read]
    · subst h5
      simp [Memory.read, h8]
    · subst h9
      rw [Memory.read, if_neg h5, ih hm, if_pos rfl]
    · simp only [Memory.read]
      split
      · rfl
      · rw [ih hm, if_neg h9]

/-- `words` written from `a` on: the word at its place, elsewhere as before (20_memory.md R64). -/
theorem Memory.read_writeAll {m : Memory} (h : Memory.wf m = true) (a : Nat) (ws : List Word) (b : Nat) :
    Memory.read (Memory.writeAll m a ws) b =
      if a ≤ b ∧ b < a + ws.length then ws.getD (b - a) 0 else Memory.read m b := by
  induction ws generalizing m a with
  | nil => rw [Memory.writeAll, if_neg (by simp)]
  | cons w ws ih =>
    rw [Memory.writeAll, ih (Memory.wf_write h a w), Memory.read_write h]
    by_cases hb : b = a
    · subst hb
      simp
    · by_cases hin : a + 1 ≤ b ∧ b < a + 1 + ws.length
      · have hin' : a ≤ b ∧ b < a + (w :: ws).length := ⟨by omega, by simp; omega⟩
        rw [if_pos hin, if_pos hin', show b - a = (b - (a + 1)) + 1 by omega, List.getD_cons_succ]
      · have hin' : ¬(a ≤ b ∧ b < a + (w :: ws).length) := by simp; omega
        rw [if_neg hin, if_neg hb, if_neg hin']

theorem Memory.wf_writeAll {m : Memory} (h : Memory.wf m = true) (a : Nat) (ws : List Word) :
    Memory.wf (Memory.writeAll m a ws) = true := by
  induction ws generalizing m a with
  | nil => exact h
  | cons w ws ih => exact ih (Memory.wf_write h a w) (a + 1)

theorem Memory.within_writeAll {m : Memory} {n : Nat} (h : Memory.within m n = true) (a : Nat) (ws : List Word)
    (hn : a + ws.length ≤ n) : Memory.within (Memory.writeAll m a ws) n = true := by
  induction ws generalizing m a with
  | nil => exact h
  | cons w ws ih =>
    simp only [List.length_cons] at hn
    exact ih (Memory.within_write h (by omega) w) (a + 1) (by omega)

/-- Canonical memories that read the same are the same list. -/
theorem Memory.ext_of_read {m m' : Memory} (h : Memory.wf m = true) (h' : Memory.wf m' = true)
    (hr : ∀ a, Memory.read m a = Memory.read m' a) : m = m' := by
  induction m generalizing m' with
  | nil =>
    cases m' with
    | nil => rfl
    | cons c m' =>
      obtain ⟨a, v⟩ := c
      have := hr a
      simp [Memory.read] at this
      exact absurd this.symm (Memory.wf_cons.1 h').1
  | cons c m ih =>
    obtain ⟨a, v⟩ := c
    obtain ⟨hv, hab, hm⟩ := Memory.wf_cons.1 h
    cases m' with
    | nil =>
      have := hr a
      simp [Memory.read] at this
      exact absurd this hv
    | cons c' m' =>
      obtain ⟨b, w⟩ := c'
      obtain ⟨hw, hab', hm'⟩ := Memory.wf_cons.1 h'
      have hba : a = b := by
        rcases Nat.lt_trichotomy a b with hlt | heq | hgt
        · have := hr a
          rw [Memory.read, if_pos rfl, Memory.read, if_neg (by omega), Memory.read_of_above hab' (by omega)] at this
          exact absurd this hv
        · exact heq
        · have := hr b
          rw [Memory.read, if_neg (by omega), Memory.read_of_above hab (by omega), Memory.read, if_pos rfl] at this
          exact absurd this.symm hw
      subst hba
      have hvw : v = w := by
        have := hr a
        simpa [Memory.read] using this
      subst hvw
      rw [ih hm hm' fun x => ?_]
      by_cases hx : x = a
      · subst hx
        rw [Memory.read_of_above hab (Nat.le_refl _), Memory.read_of_above hab' (Nat.le_refl _)]
      · have := hr x
        simpa [Memory.read, hx] using this

end Sys2Proof.Machine
end

