-- ==== Sys2Proof/Laws/State.lean ====
section
/-! SUPPORT. For every update of the state, what it makes of every field; all true by definition. -/

namespace Sys2Proof.Machine

variable (s : State)

/-! ### writeReg -/

@[simp] theorem State.writeReg_config (i : RegIdx) (v : Word) : (s.writeReg i v).config = s.config := rfl
@[simp] theorem State.writeReg_regs (i : RegIdx) (v : Word) : (s.writeReg i v).regs = (s.regs.write i v).2 := rfl
@[simp] theorem State.writeReg_pc (i : RegIdx) (v : Word) : (s.writeReg i v).pc = s.pc := rfl
@[simp] theorem State.writeReg_flags (i : RegIdx) (v : Word) : (s.writeReg i v).flags = s.flags := rfl
@[simp] theorem State.writeReg_halted (i : RegIdx) (v : Word) : (s.writeReg i v).halted = s.halted := rfl
@[simp] theorem State.writeReg_cycles (i : RegIdx) (v : Word) : (s.writeReg i v).cycles = s.cycles := rfl
@[simp] theorem State.writeReg_instret (i : RegIdx) (v : Word) : (s.writeReg i v).instret = s.instret := rfl
@[simp] theorem State.writeReg_imem (i : RegIdx) (v : Word) : (s.writeReg i v).imem = s.imem := rfl
@[simp] theorem State.writeReg_progLen (i : RegIdx) (v : Word) : (s.writeReg i v).progLen = s.progLen := rfl
@[simp] theorem State.writeReg_loaded (i : RegIdx) (v : Word) : (s.writeReg i v).loaded = s.loaded := rfl
@[simp] theorem State.writeReg_dmem (i : RegIdx) (v : Word) : (s.writeReg i v).dmem = s.dmem := rfl
@[simp] theorem State.writeReg_history (i : RegIdx) (v : Word) : (s.writeReg i v).history = s.history := rfl
@[simp] theorem State.writeReg_log (i : RegIdx) (v : Word) : (s.writeReg i v).log = s.log := rfl
@[simp] theorem State.writeReg_errorSeen (i : RegIdx) (v : Word) : (s.writeReg i v).errorSeen = s.errorSeen := rfl

/-! ### setPc -/

@[simp] theorem State.setPc_config (t : Word) : (s.setPc t).config = s.config := rfl
@[simp] theorem State.setPc_regs (t : Word) : (s.setPc t).regs = s.regs := rfl
@[simp] theorem State.setPc_pc (t : Word) : (s.setPc t).pc = t := rfl
@[simp] theorem State.setPc_flags (t : Word) : (s.setPc t).flags = s.flags := rfl
@[simp] theorem State.setPc_halted (t : Word) : (s.setPc t).halted = s.halted := rfl
@[simp] theorem State.setPc_cycles (t : Word) : (s.setPc t).cycles = s.cycles := rfl
@[simp] theorem State.setPc_instret (t : Word) : (s.setPc t).instret = s.instret := rfl
@[simp] theorem State.setPc_imem (t : Word) : (s.setPc t).imem = s.imem := rfl
@[simp] theorem State.setPc_progLen (t : Word) : (s.setPc t).progLen = s.progLen := rfl
@[simp] theorem State.setPc_loaded (t : Word) : (s.setPc t).loaded = s.loaded := rfl
@[simp] theorem State.setPc_dmem (t : Word) : (s.setPc t).dmem = s.dmem := rfl
@[simp] theorem State.setPc_history (t : Word) : (s.setPc t).history = s.history := rfl
@[simp] theorem State.setPc_log (t : Word) : (s.setPc t).log = s.log := rfl
@[simp] theorem State.setPc_errorSeen (t : Word) : (s.setPc t).errorSeen = s.errorSeen := rfl
@[simp] theorem State.setPc_readReg (t : Word) (j : RegIdx) : (s.setPc t).readReg j = s.readReg j := rfl

/-! ### setFlags -/

@[simp] theorem State.setFlags_config (f : Flags) : (s.setFlags f).config = s.config := rfl
@[simp] theorem State.setFlags_regs (f : Flags) : (s.setFlags f).regs = s.regs := rfl
@[simp] theorem State.setFlags_pc (f : Flags) : (s.setFlags f).pc = s.pc := rfl
@[simp] theorem State.setFlags_flags (f : Flags) : (s.setFlags f).flags = f := rfl
@[simp] theorem State.setFlags_halted (f : Flags) : (s.setFlags f).halted = s.halted := rfl
@[simp] theorem State.setFlags_cycles (f : Flags) : (s.setFlags f).cycles = s.cycles := rfl
@[simp] theorem State.setFlags_instret (f : Flags) : (s.setFlags f).instret = s.instret := rfl
@[simp] theorem State.setFlags_imem (f : Flags) : (s.setFlags f).imem = s.imem := rfl
@[simp] theorem State.setFlags_progLen (f : Flags) : (s.setFlags f).progLen = s.progLen := rfl
@[simp] theorem State.setFlags_loaded (f : Flags) : (s.setFlags f).loaded = s.loaded := rfl
@[simp] theorem State.setFlags_dmem (f : Flags) : (s.setFlags f).dmem = s.dmem := rfl
@[simp] theorem State.setFlags_history (f : Flags) : (s.setFlags f).history = s.history := rfl
@[simp] theorem State.setFlags_log (f : Flags) : (s.setFlags f).log = s.log := rfl
@[simp] theorem State.setFlags_errorSeen (f : Flags) : (s.setFlags f).errorSeen = s.errorSeen := rfl
@[simp] theorem State.setFlags_readReg (f : Flags) (j : RegIdx) : (s.setFlags f).readReg j = s.readReg j := rfl

/-! ### setHalted -/

@[simp] theorem State.setHalted_config : (s.setHalted).config = s.config := rfl
@[simp] theorem State.setHalted_regs : (s.setHalted).regs = s.regs := rfl
@[simp] theorem State.setHalted_pc : (s.setHalted).pc = s.pc := rfl
@[simp] theorem State.setHalted_flags : (s.setHalted).flags = s.flags := rfl
@[simp] theorem State.setHalted_halted : (s.setHalted).halted = true := rfl
@[simp] theorem State.setHalted_cycles : (s.setHalted).cycles = s.cycles := rfl
@[simp] theorem State.setHalted_instret : (s.setHalted).instret = s.instret := rfl
@[simp] theorem State.setHalted_imem : (s.setHalted).imem = s.imem := rfl
@[simp] theorem State.setHalted_progLen : (s.setHalted).progLen = s.progLen := rfl
@[simp] theorem State.setHalted_loaded : (s.setHalted).loaded = s.loaded := rfl
@[simp] theorem State.setHalted_dmem : (s.setHalted).dmem = s.dmem := rfl
@[simp] theorem State.setHalted_history : (s.setHalted).history = s.history := rfl
@[simp] theorem State.setHalted_log : (s.setHalted).log = s.log := rfl
@[simp] theorem State.setHalted_errorSeen : (s.setHalted).errorSeen = s.errorSeen := rfl
@[simp] theorem State.setHalted_readReg (j : RegIdx) : (s.setHalted).readReg j = s.readReg j := rfl

/-! ### countCycle -/

@[simp] theorem State.countCycle_config : (s.countCycle).config = s.config := rfl
@[simp] theorem State.countCycle_regs : (s.countCycle).regs = s.regs := rfl
@[simp] theorem State.countCycle_pc : (s.countCycle).pc = s.pc := rfl
@[simp] theorem State.countCycle_flags : (s.countCycle).flags = s.flags := rfl
@[simp] theorem State.countCycle_halted : (s.countCycle).halted = s.halted := rfl
@[simp] theorem State.countCycle_cycles : (s.countCycle).cycles = s.cycles + 1 := rfl
@[simp] theorem State.countCycle_instret : (s.countCycle).instret = s.instret := rfl
@[simp] theorem State.countCycle_imem : (s.countCycle).imem = s.imem := rfl
@[simp] theorem State.countCycle_progLen : (s.countCycle).progLen = s.progLen := rfl
@[simp] theorem State.countCycle_loaded : (s.countCycle).loaded = s.loaded := rfl
@[simp] theorem State.countCycle_dmem : (s.countCycle).dmem = s.dmem := rfl
@[simp] theorem State.countCycle_history : (s.countCycle).history = s.history := rfl
@[simp] theorem State.countCycle_log : (s.countCycle).log = s.log := rfl
@[simp] theorem State.countCycle_errorSeen : (s.countCycle).errorSeen = s.errorSeen := rfl
@[simp] theorem State.countCycle_readReg (j : RegIdx) : (s.countCycle).readReg j = s.readReg j := rfl

/-! ### countInstr -/

@[simp] theorem State.countInstr_config : (s.countInstr).config = s.config := rfl
@[simp] theorem State.countInstr_regs : (s.countInstr).regs = s.regs := rfl
@[simp] theorem State.countInstr_pc : (s.countInstr).pc = s.pc := rfl
@[simp] theorem State.countInstr_flags : (s.countInstr).flags = s.flags := rfl
@[simp] theorem State.countInstr_halted : (s.countInstr).halted = s.halted := rfl
@[simp] theorem State.countInstr_cycles : (s.countInstr).cycles = s.cycles := rfl
@[simp] theorem State.countInstr_instret : (s.countInstr).instret = s.instret + 1 := rfl
@[simp] theorem State.countInstr_imem : (s.countInstr).imem = s.imem := rfl
@[simp] theorem State.countInstr_progLen : (s.countInstr).progLen = s.progLen := rfl
@[simp] theorem State.countInstr_loaded : (s.countInstr).loaded = s.loaded := rfl
@[simp] theorem State.countInstr_dmem : (s.countInstr).dmem = s.dmem := rfl
@[simp] theorem State.countInstr_history : (s.countInstr).history = s.history := rfl
@[simp] theorem State.countInstr_log : (s.countInstr).log = s.log := rfl
@[simp] theorem State.countInstr_errorSeen : (s.countInstr).errorSeen = s.errorSeen := rfl
@[simp] theorem State.countInstr_readReg (j : RegIdx) : (s.countInstr).readReg j = s.readReg j := rfl

/-! ### advance -/

@[simp] theorem State.advance_config : (s.advance).config = s.config := rfl
@[simp] theorem State.advance_regs : (s.advance).regs = s.regs := rfl
@[simp] theorem State.advance_pc : (s.advance).pc = nextPc s.pc := rfl
@[simp] theorem State.advance_flags : (s.advance).flags = s.flags := rfl
@[simp] theorem State.advance_halted : (s.advance).halted = s.halted := rfl
@[simp] theorem State.advance_cycles : (s.advance).cycles = s.cycles := rfl
@[simp] theorem State.advance_instret : (s.advance).instret = s.instret := rfl
@[simp] theorem State.advance_imem : (s.advance).imem = s.imem := rfl
@[simp] theorem State.advance_progLen : (s.advance).progLen = s.progLen := rfl
@[simp] theorem State.advance_loaded : (s.advance).loaded = s.loaded := rfl
@[simp] theorem State.advance_dmem : (s.advance).dmem = s.dmem := rfl
@[simp] theorem State.advance_history : (s.advance).history = s.history := rfl
@[simp] theorem State.advance_log : (s.advance).log = s.log := rfl
@[simp] theorem State.advance_errorSeen : (s.advance).errorSeen = s.errorSeen := rfl
@[simp] theorem State.advance_readReg (j : RegIdx) : (s.advance).readReg j = s.readReg j := rfl

/-! ### retire -/

@[simp] theorem State.retire_config : (s.retire).config = s.config := rfl
@[simp] theorem State.retire_regs : (s.retire).regs = s.regs := rfl
@[simp] theorem State.retire_pc : (s.retire).pc = s.pc := rfl
@[simp] theorem State.retire_flags : (s.retire).flags = s.flags := rfl
@[simp] theorem State.retire_halted : (s.retire).halted = s.halted := rfl
@[simp] theorem State.retire_cycles : (s.retire).cycles = s.cycles + 1 := rfl
@[simp] theorem State.retire_instret : (s.retire).instret = s.instret + 1 := rfl
@[simp] theorem State.retire_imem : (s.retire).imem = s.imem := rfl
@[simp] theorem State.retire_progLen : (s.retire).progLen = s.progLen := rfl
@[simp] theorem State.retire_loaded : (s.retire).loaded = s.loaded := rfl
@[simp] theorem State.retire_dmem : (s.retire).dmem = s.dmem := rfl
@[simp] theorem State.retire_history : (s.retire).history = s.history := rfl
@[simp] theorem State.retire_log : (s.retire).log = s.log := rfl
@[simp] theorem State.retire_errorSeen : (s.retire).errorSeen = s.errorSeen := rfl
@[simp] theorem State.retire_readReg (j : RegIdx) : (s.retire).readReg j = s.readReg j := rfl

/-! ### setDmem -/

@[simp] theorem State.setDmem_config (m : Memory) : (s.setDmem m).config = s.config := rfl
@[simp] theorem State.setDmem_regs (m : Memory) : (s.setDmem m).regs = s.regs := rfl
@[simp] theorem State.setDmem_pc (m : Memory) : (s.setDmem m).pc = s.pc := rfl
@[simp] theorem State.setDmem_flags (m : Memory) : (s.setDmem m).flags = s.flags := rfl
@[simp] theorem State.setDmem_halted (m : Memory) : (s.setDmem m).halted = s.halted := rfl
@[simp] theorem State.setDmem_cycles (m : Memory) : (s.setDmem m).cycles = s.cycles := rfl
@[simp] theorem State.setDmem_instret (m : Memory) : (s.setDmem m).instret = s.instret := rfl
@[simp] theorem State.setDmem_imem (m : Memory) : (s.setDmem m).imem = s.imem := rfl
@[simp] theorem State.setDmem_progLen (m : Memory) : (s.setDmem m).progLen = s.progLen := rfl
@[simp] theorem State.setDmem_loaded (m : Memory) : (s.setDmem m).loaded = s.loaded := rfl
@[simp] theorem State.setDmem_dmem (m : Memory) : (s.setDmem m).dmem = m := rfl
@[simp] theorem State.setDmem_history (m : Memory) : (s.setDmem m).history = s.history := rfl
@[simp] theorem State.setDmem_log (m : Memory) : (s.setDmem m).log = s.log := rfl
@[simp] theorem State.setDmem_errorSeen (m : Memory) : (s.setDmem m).errorSeen = s.errorSeen := rfl
@[simp] theorem State.setDmem_readReg (m : Memory) (j : RegIdx) : (s.setDmem m).readReg j = s.readReg j := rfl

/-! ### pushHistory -/

@[simp] theorem State.pushHistory_config (r : HistoryRecord) : (s.pushHistory r).config = s.config := rfl
@[simp] theorem State.pushHistory_regs (r : HistoryRecord) : (s.pushHistory r).regs = s.regs := rfl
@[simp] theorem State.pushHistory_pc (r : HistoryRecord) : (s.pushHistory r).pc = s.pc := rfl
@[simp] theorem State.pushHistory_flags (r : HistoryRecord) : (s.pushHistory r).flags = s.flags := rfl
@[simp] theorem State.pushHistory_halted (r : HistoryRecord) : (s.pushHistory r).halted = s.halted := rfl
@[simp] theorem State.pushHistory_cycles (r : HistoryRecord) : (s.pushHistory r).cycles = s.cycles := rfl
@[simp] theorem State.pushHistory_instret (r : HistoryRecord) : (s.pushHistory r).instret = s.instret := rfl
@[simp] theorem State.pushHistory_imem (r : HistoryRecord) : (s.pushHistory r).imem = s.imem := rfl
@[simp] theorem State.pushHistory_progLen (r : HistoryRecord) : (s.pushHistory r).progLen = s.progLen := rfl
@[simp] theorem State.pushHistory_loaded (r : HistoryRecord) : (s.pushHistory r).loaded = s.loaded := rfl
@[simp] theorem State.pushHistory_dmem (r : HistoryRecord) : (s.pushHistory r).dmem = s.dmem := rfl
@[simp] theorem State.pushHistory_history (r : HistoryRecord) : (s.pushHistory r).history = pushBounded historyBound s.history r := rfl
@[simp] theorem State.pushHistory_log (r : HistoryRecord) : (s.pushHistory r).log = s.log := rfl
@[simp] theorem State.pushHistory_errorSeen (r : HistoryRecord) : (s.pushHistory r).errorSeen = s.errorSeen := rfl
@[simp] theorem State.pushHistory_readReg (r : HistoryRecord) (j : RegIdx) : (s.pushHistory r).readReg j = s.readReg j := rfl

/-! ### logError -/

@[simp] theorem State.logError_config (e : Fault) : (s.logError e).config = s.config := rfl
@[simp] theorem State.logError_regs (e : Fault) : (s.logError e).regs = s.regs := rfl
@[simp] theorem State.logError_pc (e : Fault) : (s.logError e).pc = s.pc := rfl
@[simp] theorem State.logError_flags (e : Fault) : (s.logError e).flags = s.flags := rfl
@[simp] theorem State.logError_halted (e : Fault) : (s.logError e).halted = s.halted := rfl
@[simp] theorem State.logError_cycles (e : Fault) : (s.logError e).cycles = s.cycles := rfl
@[simp] theorem State.logError_instret (e : Fault) : (s.logError e).instret = s.instret := rfl
@[simp] theorem State.logError_imem (e : Fault) : (s.logError e).imem = s.imem := rfl
@[simp] theorem State.logError_progLen (e : Fault) : (s.logError e).progLen = s.progLen := rfl
@[simp] theorem State.logError_loaded (e : Fault) : (s.logError e).loaded = s.loaded := rfl
@[simp] theorem State.logError_dmem (e : Fault) : (s.logError e).dmem = s.dmem := rfl
@[simp] theorem State.logError_history (e : Fault) : (s.logError e).history = s.history := rfl
@[simp] theorem State.logError_log (e : Fault) : (s.logError e).log = pushBounded s.config.logBound s.log e := rfl
@[simp] theorem State.logError_errorSeen (e : Fault) : (s.logError e).errorSeen = true := rfl
@[simp] theorem State.logError_readReg (e : Fault) (j : RegIdx) : (s.logError e).readReg j = s.readReg j := rfl

end Sys2Proof.Machine
end

