-- ==== Sys2Proof/Laws/Regs.lean ====
section
/-! SUPPORT. The register file: what a read sees after a write (10_state.md R22 to R25). -/

namespace Sys2Proof.Machine

@[simp] theorem RegFile.read_zero (r : RegFile) : RegFile.read r 0 = 0 := rfl

theorem RegFile.read_of_ne {r : RegFile} {i : RegIdx} (h : i ≠ 0) : RegFile.read r i = r[i.val] := if_neg h

@[simp] theorem RegFile.write_zero (r : RegFile) (v : Word) : RegFile.write r 0 v = (false, r) := rfl

theorem RegFile.write_of_ne {r : RegFile} {i : RegIdx} (h : i ≠ 0) (v : Word) :
    RegFile.write r i v = (true, r.set i.val v) := if_neg h

/-- A read after a write: the value, at the register written unless it is register 0. -/
theorem RegFile.read_write (r : RegFile) (i j : RegIdx) (v : Word) :
    RegFile.read (RegFile.write r i v).2 j = if j = i ∧ i ≠ 0 then v else RegFile.read r j := by
  by_cases hi : i = 0
  · subst hi; simp
  · rw [RegFile.write_of_ne hi]
    by_cases hj : j = 0
    · subst hj
      rw [RegFile.read_zero, RegFile.read_zero, if_neg (fun h => h.2 h.1.symm)]
    · simp only [RegFile.read_of_ne hj, Vector.getElem_set, hi, ne_eq, not_false_eq_true, and_true]
      by_cases h : j = i
      · subst h; simp
      · have h' : i.val ≠ j.val := fun e => h (Fin.ext e.symm)
        simp [h, h']

/-- Register 0 as a destination: the state stays as it is (10_state.md R25). -/
@[simp] theorem State.writeReg_zero (s : State) (v : Word) : s.writeReg 0 v = s := rfl

@[simp] theorem State.readReg_zero (s : State) : s.readReg 0 = 0 := rfl

theorem State.readReg_writeReg (s : State) (i j : RegIdx) (v : Word) :
    (s.writeReg i v).readReg j = if j = i ∧ i ≠ 0 then v else s.readReg j := RegFile.read_write s.regs i j v

theorem State.readReg_writeReg_self {s : State} {i : RegIdx} (h : i ≠ 0) (v : Word) :
    (s.writeReg i v).readReg i = v := by simp [State.readReg_writeReg, h]

theorem State.readReg_writeReg_other {s : State} {i j : RegIdx} (h : j ≠ i) (v : Word) :
    (s.writeReg i v).readReg j = s.readReg j := by simp [State.readReg_writeReg, h]

/-- Slot 0 is written by nothing. -/
theorem RegFile.write_slot_zero (r : RegFile) (i : RegIdx) (v : Word) : (RegFile.write r i v).2[0] = r[0] := by
  by_cases h : i = 0
  · subst h; rfl
  · have h' : i.val ≠ 0 := fun e => h (Fin.ext e)
    rw [RegFile.write_of_ne h]
    simp [h']

end Sys2Proof.Machine
end

