-- ==== Sys2Proof/Laws/Exec.lean ====
section
/-! SUPPORT. What each shared operation, each meaning and a step can do, said once. -/

namespace Sys2Proof.Machine

/-! ### Raising an error (60_exceptions.md R262, R263) -/

theorem raise_graceful {s : State} (h : s.config.strict = false) (e : Fault) (k : State → Result) :
    raise e s k = k (s.logError e) := by simp [raise, h]

theorem raise_strict {s : State} (h : s.config.strict = true) (e : Fault) (k : State → Result) :
    raise e s k = .fault e := by simp [raise, h]

/-! ### The Data Memory block and the core's translation (20_memory.md R65 to R68) -/

/-- `DM_BASE` cancels: a read reaches the cell at `ea` iff `ea < DM_SIZE` (R66). -/
theorem readWord_logicalAddress (c : Config) (m : Memory) (ea : Word) :
    readWord c m (logicalAddress c ea) = if ea.toNat < c.dmSize then some (Memory.read m ea.toNat) else none := by
  by_cases h : ea.toNat < c.dmSize <;>
    simp [readWord, logicalInRange, logicalAddress, internalIndex, h]

/-- `DM_BASE` cancels: a write reaches the cell at `ea` iff `ea < DM_SIZE` (R66). -/
theorem writeWord_logicalAddress (c : Config) (m : Memory) (ea v : Word) :
    writeWord c m (logicalAddress c ea) v = if ea.toNat < c.dmSize then some (Memory.write m ea.toNat v) else none := by
  by_cases h : ea.toNat < c.dmSize <;>
    simp [writeWord, logicalInRange, logicalAddress, internalIndex, h]

theorem loadWord_inRange {s : State} {ea : Word} (h : ea.toNat < s.config.dmSize) (i : Instr)
    (k : Word → State → Result) : loadWord i ea s k = k (Memory.read s.dmem ea.toNat) s := by
  simp [loadWord, readWord_logicalAddress, h]

theorem loadWord_outOfRange {s : State} {ea : Word} (h : s.config.dmSize ≤ ea.toNat) (i : Instr)
    (k : Word → State → Result) :
    loadWord i ea s k = raise (.dataOutOfRange .read s.pc i ea) s (k 0) := by
  simp [loadWord, readWord_logicalAddress, Nat.not_lt.2 h]

theorem storeWord_inRange {s : State} {ea : Word} (h : ea.toNat < s.config.dmSize) (i : Instr) (v : Word)
    (k : State → Result) : storeWord i ea v s k = k (s.setDmem (Memory.write s.dmem ea.toNat v)) := by
  simp [storeWord, writeWord_logicalAddress, h]

theorem storeWord_outOfRange {s : State} {ea : Word} (h : s.config.dmSize ≤ ea.toNat) (i : Instr) (v : Word)
    (k : State → Result) :
    storeWord i ea v s k = raise (.dataOutOfRange .write s.pc i ea) s k := by
  simp [storeWord, writeWord_logicalAddress, Nat.not_lt.2 h]

/-! ### LW and SW on each side of the range check (42_load_store.md R201, R202) -/

theorem exec_lw_inRange {s : State} {rd rs1 : RegIdx} {imm : BitVec 4}
    (h : (effectiveAddress s rs1 imm).toNat < s.config.dmSize) :
    exec (.lw rd rs1 imm) s =
      .next ((s.writeReg rd (Memory.read s.dmem (effectiveAddress s rs1 imm).toNat)).advance.retire) := by
  simp only [exec, execLw, loadWord_inRange h]

theorem exec_lw_graceful {s : State} {rd rs1 : RegIdx} {imm : BitVec 4}
    (h : s.config.dmSize ≤ (effectiveAddress s rs1 imm).toNat) (hs : s.config.strict = false) :
    exec (.lw rd rs1 imm) s =
      .next (((s.logError (.dataOutOfRange .read s.pc (.lw rd rs1 imm) (effectiveAddress s rs1 imm))).writeReg rd
        0).advance.retire) := by
  simp only [exec, execLw, loadWord_outOfRange h, raise_graceful hs]

theorem exec_lw_strict {s : State} {rd rs1 : RegIdx} {imm : BitVec 4}
    (h : s.config.dmSize ≤ (effectiveAddress s rs1 imm).toNat) (hs : s.config.strict = true) :
    exec (.lw rd rs1 imm) s =
      .fault (.dataOutOfRange .read s.pc (.lw rd rs1 imm) (effectiveAddress s rs1 imm)) := by
  simp only [exec, execLw, loadWord_outOfRange h, raise_strict hs]

theorem exec_sw_inRange {s : State} {rs2 rs1 : RegIdx} {off : BitVec 4}
    (h : (effectiveAddress s rs1 off).toNat < s.config.dmSize) :
    exec (.sw rs2 rs1 off) s =
      .next ((s.setDmem (Memory.write s.dmem (effectiveAddress s rs1 off).toNat (s.readReg rs2))).advance.retire) := by
  simp only [exec, execSw, storeWord_inRange h]

theorem exec_sw_graceful {s : State} {rs2 rs1 : RegIdx} {off : BitVec 4}
    (h : s.config.dmSize ≤ (effectiveAddress s rs1 off).toNat) (hs : s.config.strict = false) :
    exec (.sw rs2 rs1 off) s =
      .next ((s.logError (.dataOutOfRange .write s.pc (.sw rs2 rs1 off)
        (effectiveAddress s rs1 off))).advance.retire) := by
  simp only [exec, execSw, storeWord_outOfRange h, raise_graceful hs]

theorem exec_sw_strict {s : State} {rs2 rs1 : RegIdx} {off : BitVec 4}
    (h : s.config.dmSize ≤ (effectiveAddress s rs1 off).toNat) (hs : s.config.strict = true) :
    exec (.sw rs2 rs1 off) s =
      .fault (.dataOutOfRange .write s.pc (.sw rs2 rs1 off) (effectiveAddress s rs1 off)) := by
  simp only [exec, execSw, storeWord_outOfRange h, raise_strict hs]

/-! ### Branches (43_branch_jump.md R222, R223) -/

theorem branch_taken {op : AluOp} {rs1 rs2 : RegIdx} {off : BitVec 4} {s : State}
    (h : aluResult op (s.readReg rs1) (s.readReg rs2) = 1) :
    branch op rs1 rs2 off s =
      .next (((s.setFlags (aluFlags op (s.readReg rs1) (s.readReg rs2))).setPc (branchTarget s.pc off)).retire) := by
  simp [branch, h]

theorem branch_untaken {op : AluOp} {rs1 rs2 : RegIdx} {off : BitVec 4} {s : State}
    (h : aluResult op (s.readReg rs1) (s.readReg rs2) ≠ 1) :
    branch op rs1 rs2 off s =
      .next ((s.setFlags (aluFlags op (s.readReg rs1) (s.readReg rs2))).advance.retire) := by
  simp only [branch]
  rw [if_neg h]

/-! ### What any meaning can do -/

/-- All that `exec` can make of a state when it completes: the configuration, Instruction Memory, `prog_len`, the mark of
a load and the history stay; at most one register and one data word in range are written; the counters rise as R33 and R34 say; a
diagnostic record is appended or not. -/
structure ExecFrame (i : Instr) (s t : State) : Prop where
  config : t.config = s.config
  imem : t.imem = s.imem
  progLen : t.progLen = s.progLen
  loaded : t.loaded = s.loaded
  history : t.history = s.history
  regs : t.regs = s.regs ∨ ∃ rd v, t.regs = (RegFile.write s.regs rd v).2
  dmem : t.dmem = s.dmem ∨ ∃ a v, a < s.config.dmSize ∧ t.dmem = Memory.write s.dmem a v
  cycles : t.cycles = s.cycles + 1
  instret : t.instret = s.instret + if i.mnemonic.valid then 1 else 0
  errors : (i.mnemonic.valid = true ∧ t.log = s.log ∧ t.errorSeen = s.errorSeen) ∨
    (t.errorSeen = true ∧ ∃ e, t.log = pushBounded s.config.logBound s.log e)

theorem arith_frame {op : AluOp} {rd : RegIdx} {a b : Word} {i : Instr} {s t : State}
    (hi : i.mnemonic.valid = true) (h : arith op rd a b s = .next t) : ExecFrame i s t := by
  simp only [arith, Host.Outcome.next.injEq] at h
  subst h
  exact ⟨rfl, rfl, rfl, rfl, rfl, .inr ⟨_, _, rfl⟩, .inl rfl, rfl, by simp [hi], .inl ⟨hi, rfl, rfl⟩⟩

theorem branch_frame {op : AluOp} {rs1 rs2 : RegIdx} {off : BitVec 4} {i : Instr} {s t : State}
    (hi : i.mnemonic.valid = true) (h : branch op rs1 rs2 off s = .next t) : ExecFrame i s t := by
  by_cases hr : aluResult op (s.readReg rs1) (s.readReg rs2) = 1
  · rw [branch_taken hr, Host.Outcome.next.injEq] at h
    subst h
    exact ⟨rfl, rfl, rfl, rfl, rfl, .inl rfl, .inl rfl, rfl, by simp [hi], .inl ⟨hi, rfl, rfl⟩⟩
  · rw [branch_untaken hr, Host.Outcome.next.injEq] at h
    subst h
    exact ⟨rfl, rfl, rfl, rfl, rfl, .inl rfl, .inl rfl, rfl, by simp [hi], .inl ⟨hi, rfl, rfl⟩⟩

theorem execLw_frame {rd rs1 : RegIdx} {imm : BitVec 4} {s t : State}
    (h : exec (.lw rd rs1 imm) s = .next t) : ExecFrame (.lw rd rs1 imm) s t := by
  rcases Nat.lt_or_ge (effectiveAddress s rs1 imm).toNat s.config.dmSize with hr | hr
  · rw [exec_lw_inRange hr, Host.Outcome.next.injEq] at h
    subst h
    exact ⟨rfl, rfl, rfl, rfl, rfl, .inr ⟨_, _, rfl⟩, .inl rfl, rfl, rfl, .inl ⟨rfl, rfl, rfl⟩⟩
  · rcases Bool.eq_false_or_eq_true s.config.strict with hs | hs
    · rw [exec_lw_strict hr hs] at h
      cases h
    · rw [exec_lw_graceful hr hs, Host.Outcome.next.injEq] at h
      subst h
      exact ⟨rfl, rfl, rfl, rfl, rfl, .inr ⟨_, _, rfl⟩, .inl rfl, rfl, rfl, .inr ⟨rfl, _, rfl⟩⟩

theorem execSw_frame {rs2 rs1 : RegIdx} {off : BitVec 4} {s t : State}
    (h : exec (.sw rs2 rs1 off) s = .next t) : ExecFrame (.sw rs2 rs1 off) s t := by
  rcases Nat.lt_or_ge (effectiveAddress s rs1 off).toNat s.config.dmSize with hr | hr
  · rw [exec_sw_inRange hr, Host.Outcome.next.injEq] at h
    subst h
    exact ⟨rfl, rfl, rfl, rfl, rfl, .inl rfl, .inr ⟨_, _, hr, rfl⟩, rfl, rfl, .inl ⟨rfl, rfl, rfl⟩⟩
  · rcases Bool.eq_false_or_eq_true s.config.strict with hs | hs
    · rw [exec_sw_strict hr hs] at h
      cases h
    · rw [exec_sw_graceful hr hs, Host.Outcome.next.injEq] at h
      subst h
      exact ⟨rfl, rfl, rfl, rfl, rfl, .inl rfl, .inl rfl, rfl, rfl, .inr ⟨rfl, _, rfl⟩⟩

theorem invalidWord_graceful {raw : Word} {s : State} (hs : s.config.strict = false) :
    invalidWord raw s = .next ((s.logError (.invalidInstruction s.pc raw)).advance.countCycle) :=
  raise_graceful hs _ _

theorem invalidWord_strict {raw : Word} {s : State} (hs : s.config.strict = true) :
    invalidWord raw s = .fault (.invalidInstruction s.pc raw) := raise_strict hs _ _

theorem invalidWord_frame {raw : Word} {i : Instr} {s t : State} (hi : i.mnemonic.valid = false)
    (h : invalidWord raw s = .next t) : ExecFrame i s t := by
  rcases Bool.eq_false_or_eq_true s.config.strict with hs | hs
  · rw [invalidWord_strict hs] at h
    cases h
  · rw [invalidWord_graceful hs, Host.Outcome.next.injEq] at h
    subst h
    exact ⟨rfl, rfl, rfl, rfl, rfl, .inl rfl, .inl rfl, rfl, by simp [hi], .inr ⟨rfl, _, rfl⟩⟩

/-- What any instruction can do when it completes. -/
theorem exec_frame {i : Instr} {s t : State} (h : exec i s = .next t) : ExecFrame i s t := by
  cases i with
  | add rd rs1 rs2 => exact arith_frame rfl h
  | sub rd rs1 rs2 => exact arith_frame rfl h
  | and rd rs1 rs2 => exact arith_frame rfl h
  | or rd rs1 rs2 => exact arith_frame rfl h
  | xor rd rs1 rs2 => exact arith_frame rfl h
  | addi rd rs1 imm => exact arith_frame rfl h
  | lw rd rs1 imm => exact execLw_frame h
  | sw rs2 rs1 off => exact execSw_frame h
  | beq rs1 rs2 off => exact branch_frame rfl h
  | bne rs1 rs2 off => exact branch_frame rfl h
  | jal rd off =>
    simp only [exec, execJal, Host.Outcome.next.injEq] at h
    subst h
    exact ⟨rfl, rfl, rfl, rfl, rfl, .inr ⟨_, _, rfl⟩, .inl rfl, rfl, rfl, .inl ⟨rfl, rfl, rfl⟩⟩
  | nop =>
    simp only [exec, execNop, Host.Outcome.next.injEq] at h
    subst h
    exact ⟨rfl, rfl, rfl, rfl, rfl, .inl rfl, .inl rfl, rfl, rfl, .inl ⟨rfl, rfl, rfl⟩⟩
  | halt =>
    simp only [exec, execHalt, Host.Outcome.next.injEq] at h
    subst h
    exact ⟨rfl, rfl, rfl, rfl, rfl, .inl rfl, .inl rfl, rfl, rfl, .inl ⟨rfl, rfl, rfl⟩⟩
  | reservedD raw => exact invalidWord_frame rfl h
  | reservedE raw => exact invalidWord_frame rfl h
  | reservedF raw => exact invalidWord_frame rfl h

/-! ### What each shape of instruction answers -/

/-- The two ways LW completes. -/
theorem exec_lw_cases {rd rs1 : RegIdx} {imm : BitVec 4} {s t : State} (h : exec (.lw rd rs1 imm) s = .next t) :
    ((effectiveAddress s rs1 imm).toNat < s.config.dmSize ∧
      t = (s.writeReg rd (Memory.read s.dmem (effectiveAddress s rs1 imm).toNat)).advance.retire) ∨
    (s.config.dmSize ≤ (effectiveAddress s rs1 imm).toNat ∧ s.config.strict = false ∧
      t = ((s.logError (.dataOutOfRange .read s.pc (.lw rd rs1 imm) (effectiveAddress s rs1 imm))).writeReg rd
        0).advance.retire) := by
  rcases Nat.lt_or_ge (effectiveAddress s rs1 imm).toNat s.config.dmSize with hr | hr
  · rw [exec_lw_inRange hr, Host.Outcome.next.injEq] at h
    exact .inl ⟨hr, h.symm⟩
  · rcases Bool.eq_false_or_eq_true s.config.strict with hs | hs
    · rw [exec_lw_strict hr hs] at h
      cases h
    · rw [exec_lw_graceful hr hs, Host.Outcome.next.injEq] at h
      exact .inr ⟨hr, hs, h.symm⟩

/-- The two ways SW completes. -/
theorem exec_sw_cases {rs2 rs1 : RegIdx} {off : BitVec 4} {s t : State} (h : exec (.sw rs2 rs1 off) s = .next t) :
    ((effectiveAddress s rs1 off).toNat < s.config.dmSize ∧
      t = (s.setDmem (Memory.write s.dmem (effectiveAddress s rs1 off).toNat (s.readReg rs2))).advance.retire) ∨
    (s.config.dmSize ≤ (effectiveAddress s rs1 off).toNat ∧ s.config.strict = false ∧
      t = (s.logError (.dataOutOfRange .write s.pc (.sw rs2 rs1 off)
        (effectiveAddress s rs1 off))).advance.retire) := by
  rcases Nat.lt_or_ge (effectiveAddress s rs1 off).toNat s.config.dmSize with hr | hr
  · rw [exec_sw_inRange hr, Host.Outcome.next.injEq] at h
    exact .inl ⟨hr, h.symm⟩
  · rcases Bool.eq_false_or_eq_true s.config.strict with hs | hs
    · rw [exec_sw_strict hr hs] at h
      cases h
    · rw [exec_sw_graceful hr hs, Host.Outcome.next.injEq] at h
      exact .inr ⟨hr, hs, h.symm⟩

/-- BEQ and BNE as one equation: only the flags, `pc` and the counters change. -/
theorem branch_eq (op : AluOp) (rs1 rs2 : RegIdx) (off : BitVec 4) (s : State) :
    branch op rs1 rs2 off s =
      .next ((s.setFlags (aluFlags op (s.readReg rs1) (s.readReg rs2))).setPc
        (if aluResult op (s.readReg rs1) (s.readReg rs2) = 1 then branchTarget s.pc off else nextPc s.pc)).retire := by
  by_cases hr : aluResult op (s.readReg rs1) (s.readReg rs2) = 1
  · rw [branch_taken hr, if_pos hr]
  · rw [branch_untaken hr, if_neg hr]
    rfl

/-- BEQ (43_branch_jump.md R222) with its condition on the registers. -/
theorem exec_beq (rs1 rs2 : RegIdx) (off : BitVec 4) (s : State) :
    exec (.beq rs1 rs2 off) s =
      .next ((s.setFlags { z := decide (s.readReg rs1 ≠ s.readReg rs2), n := false, v := false }).setPc
        (if s.readReg rs1 = s.readReg rs2 then branchTarget s.pc off else nextPc s.pc)).retire := by
  have h := branch_eq .eq rs1 rs2 off s
  simp only [aluFlags_eq, aluResult_eq_one] at h
  exact h

/-- BNE (R223) with its condition on the registers. -/
theorem exec_bne (rs1 rs2 : RegIdx) (off : BitVec 4) (s : State) :
    exec (.bne rs1 rs2 off) s =
      .next ((s.setFlags { z := decide (s.readReg rs1 = s.readReg rs2), n := false, v := false }).setPc
        (if s.readReg rs1 = s.readReg rs2 then nextPc s.pc else branchTarget s.pc off)).retire := by
  have h := branch_eq .ne rs1 rs2 off s
  simp only [aluFlags_ne, aluResult_ne_one, ne_eq, ite_not] at h
  exact h

/-- The one way an Invalid word completes. -/
theorem invalidWord_cases {raw : Word} {s t : State} (h : invalidWord raw s = .next t) :
    s.config.strict = false ∧ t = (s.logError (.invalidInstruction s.pc raw)).advance.countCycle := by
  rcases Bool.eq_false_or_eq_true s.config.strict with hs | hs
  · rw [invalidWord_strict hs] at h
    cases h
  · rw [invalidWord_graceful hs, Host.Outcome.next.injEq] at h
    exact ⟨hs, h.symm⟩

/-- An instruction of a reserved row is the execution of an Invalid word. -/
theorem exec_of_invalid {i : Instr} (h : i.mnemonic.valid = false) (s : State) :
    ∃ raw, (i = .reservedD raw ∨ i = .reservedE raw ∨ i = .reservedF raw) ∧ exec i s = invalidWord raw s := by
  cases i with
  | reservedD raw => exact ⟨raw, by simp, rfl⟩
  | reservedE raw => exact ⟨raw, by simp, rfl⟩
  | reservedF raw => exact ⟨raw, by simp, rfl⟩
  | _ => cases h

/-! ### The step (40_core_cycle.md R145 to R153) -/

theorem step_halted {s : State} (h : s.halted = true) : step s = .next s := by simp [step, h]

theorem step_inRange {s : State} (h : s.halted = false) (hp : s.pc.toNat < s.config.imSize) :
    step s = runWord (Memory.read s.imem s.pc.toNat) s := by simp [step, h, fetch, hp]

theorem step_outOfRange {s : State} (h : s.halted = false) (hp : s.config.imSize ≤ s.pc.toNat) :
    step s = raise (.fetchOutOfRange s.pc) s (runWord 0) := by simp [step, h, fetch, Nat.not_lt.2 hp]

/-- The record's fields put in: the word and what it decodes to. -/
theorem runWord_eq (w : Word) (s : State) :
    runWord w s = Result.mapNext
      (fun t => t.pushHistory { pc := s.pc, word := w, instr := decode s.config.opMap w })
      (exec (decode s.config.opMap w) s) := rfl

theorem runWord_next {w : Word} {s t : State} (h : runWord w s = .next t) :
    ∃ u, exec (decode s.config.opMap w) s = .next u ∧
      t = u.pushHistory { pc := s.pc, word := w, instr := decode s.config.opMap w } := by
  rw [runWord_eq] at h
  cases he : exec (decode s.config.opMap w) s with
  | next u =>
    rw [he] at h
    exact ⟨u, rfl, by simpa [Result.mapNext] using h.symm⟩
  | fault e => rw [he] at h; cases h
  | refused e => rw [he] at h; cases h

theorem runWord_of_exec {w : Word} {s u : State} (h : exec (decode s.config.opMap w) s = .next u) :
    runWord w s = .next (u.pushHistory { pc := s.pc, word := w, instr := decode s.config.opMap w }) := by
  rw [runWord_eq, h]
  rfl

/-- What a step can do when it answers a next state: nothing on a halted core; else it runs the fetched word, or,
out of range under the graceful policy, the word 0 after logging the error. -/
theorem step_next {s t : State} (h : step s = .next t) :
    (s.halted = true ∧ t = s) ∨
    (s.halted = false ∧ s.pc.toNat < s.config.imSize ∧ runWord (Memory.read s.imem s.pc.toNat) s = .next t) ∨
    (s.halted = false ∧ s.config.imSize ≤ s.pc.toNat ∧ s.config.strict = false ∧
      runWord 0 (s.logError (.fetchOutOfRange s.pc)) = .next t) := by
  cases hh : s.halted with
  | true =>
    rw [step_halted hh, Host.Outcome.next.injEq] at h
    exact .inl ⟨rfl, h.symm⟩
  | false =>
    rcases Nat.lt_or_ge s.pc.toNat s.config.imSize with hp | hp
    · rw [step_inRange hh hp] at h
      exact .inr (.inl ⟨rfl, hp, h⟩)
    · rw [step_outOfRange hh hp] at h
      rcases Bool.eq_false_or_eq_true s.config.strict with hs | hs
      · rw [raise_strict hs] at h
        cases h
      · rw [raise_graceful hs] at h
        exact .inr (.inr ⟨rfl, hp, hs, h⟩)

/-- Every instruction completes under the graceful policy. -/
theorem exec_graceful {s : State} (hs : s.config.strict = false) (i : Instr) : ∃ t, exec i s = .next t := by
  cases i with
  | lw rd rs1 imm =>
    rcases Nat.lt_or_ge (effectiveAddress s rs1 imm).toNat s.config.dmSize with hr | hr
    · exact ⟨_, exec_lw_inRange hr⟩
    · exact ⟨_, exec_lw_graceful hr hs⟩
  | sw rs2 rs1 off =>
    rcases Nat.lt_or_ge (effectiveAddress s rs1 off).toNat s.config.dmSize with hr | hr
    · exact ⟨_, exec_sw_inRange hr⟩
    · exact ⟨_, exec_sw_graceful hr hs⟩
  | beq rs1 rs2 off =>
    by_cases hr : aluResult .eq (s.readReg rs1) (s.readReg rs2) = 1
    · exact ⟨_, branch_taken hr⟩
    · exact ⟨_, branch_untaken hr⟩
  | bne rs1 rs2 off =>
    by_cases hr : aluResult .ne (s.readReg rs1) (s.readReg rs2) = 1
    · exact ⟨_, branch_taken hr⟩
    · exact ⟨_, branch_untaken hr⟩
  | add rd rs1 rs2 => exact ⟨_, rfl⟩
  | sub rd rs1 rs2 => exact ⟨_, rfl⟩
  | and rd rs1 rs2 => exact ⟨_, rfl⟩
  | or rd rs1 rs2 => exact ⟨_, rfl⟩
  | xor rd rs1 rs2 => exact ⟨_, rfl⟩
  | addi rd rs1 imm => exact ⟨_, rfl⟩
  | jal rd off => exact ⟨_, rfl⟩
  | nop => exact ⟨_, rfl⟩
  | halt => exact ⟨_, rfl⟩
  | reservedD raw => exact ⟨_, invalidWord_graceful hs⟩
  | reservedE raw => exact ⟨_, invalidWord_graceful hs⟩
  | reservedF raw => exact ⟨_, invalidWord_graceful hs⟩

end Sys2Proof.Machine
end

