-- ==== Sys2Proof/Laws/PerInstr.lean ====
section
/-! SUPPORT. The per-instruction family `EncodedOpcode`: the opcode of an encoded well-formed instruction selects the
instruction's own row (30_encoding.md R91, R97, R98). -/

namespace Sys2Proof.Laws.EncodedOpcode

/-- Under every opcode map that has the instruction, the opcode field of its word selects its mnemonic. -/
def Statement (i : Instr) : Prop :=
  ∀ m : OpMap, i.wellFormed m = true → m.slot (opcodeField (encode m i)) = i.mnemonic

theorem of_pack {m : OpMap} {k : Mnemonic} (h : m.defines k = true) (a b c : BitVec 4) :
    m.slot (opcodeField (packFields (m.codeOf k) a b c)) = k := by
  rw [opcodeField_pack, OpMap.slot_codeOf h]

theorem add (rd rs1 rs2 : RegIdx) : Statement (.add rd rs1 rs2) := fun _ h => of_pack h _ _ _

theorem sub (rd rs1 rs2 : RegIdx) : Statement (.sub rd rs1 rs2) := fun _ h => of_pack h _ _ _

theorem and (rd rs1 rs2 : RegIdx) : Statement (.and rd rs1 rs2) := fun _ h => of_pack h _ _ _

theorem or (rd rs1 rs2 : RegIdx) : Statement (.or rd rs1 rs2) := fun _ h => of_pack h _ _ _

theorem xor (rd rs1 rs2 : RegIdx) : Statement (.xor rd rs1 rs2) := fun _ h => of_pack h _ _ _

theorem addi (rd rs1 : RegIdx) (imm : BitVec 4) : Statement (.addi rd rs1 imm) := fun _ h => of_pack h _ _ _

theorem lw (rd rs1 : RegIdx) (imm : BitVec 4) : Statement (.lw rd rs1 imm) := fun _ h => of_pack h _ _ _

theorem sw (rs2 rs1 : RegIdx) (off : BitVec 4) : Statement (.sw rs2 rs1 off) := fun _ h => of_pack h _ _ _

theorem beq (rs1 rs2 : RegIdx) (off : BitVec 4) : Statement (.beq rs1 rs2 off) := fun _ h => of_pack h _ _ _

theorem bne (rs1 rs2 : RegIdx) (off : BitVec 4) : Statement (.bne rs1 rs2 off) := fun _ h => of_pack h _ _ _

theorem jal (rd : RegIdx) (off : BitVec 8) : Statement (.jal rd off) := fun _ h => of_pack h _ _ _

theorem nop : Statement .nop := fun _ h => of_pack h _ _ _

theorem halt : Statement .halt := fun _ h => of_pack h _ _ _

theorem reservedD (raw : Word) : Statement (.reservedD raw) := fun _ h => eq_of_beq h

theorem reservedE (raw : Word) : Statement (.reservedE raw) := fun _ h => eq_of_beq h

theorem reservedF (raw : Word) : Statement (.reservedF raw) := fun _ h => eq_of_beq h

end Sys2Proof.Laws.EncodedOpcode
end

