-- ==== Sys2Proof/Laws/Run.lean ====
section
/-! SUPPORT. Runs of the host's core, step by step, and what every completed step keeps. -/

namespace Sys2Proof.Machine

theorem core_run_next {n : Nat} {s t : State} (h : step s = .next t) :
    Sys2Proof.core.run (n + 1) s = Sys2Proof.core.run n t := by
  have h' : Sys2Proof.core.step s = .next t := h
  simp only [Host.Core.run, h']

theorem core_run_fault {n : Nat} {s : State} {e : Fault} (h : step s = .fault e) :
    Sys2Proof.core.run (n + 1) s = .fault e := by
  have h' : Sys2Proof.core.step s = .fault e := h
  simp only [Host.Core.run, h']

theorem core_run_refused {n : Nat} {s : State} {e : Refusal} (h : step s = .refused e) :
    Sys2Proof.core.run (n + 1) s = .refused e := by
  have h' : Sys2Proof.core.step s = .refused e := h
  simp only [Host.Core.run, h']

/-- A halted core stays as it is for any number of steps (40_core_cycle.md R152). -/
theorem core_run_halted {s : State} (h : s.halted = true) (n : Nat) : Sys2Proof.core.run n s = .next s := by
  induction n with
  | zero => rfl
  | succ n ih => exact (core_run_next (step_halted h)).trans ih

/-- The frame of a step: a completed step of a core that is not halted is `exec` of the decoded word, from the state
itself or, after a fetch out of range, from the state with the error logged. -/
theorem step_next_frame {s t : State} (h : step s = .next t) (hh : s.halted = false) :
    ∃ s' u w, (s' = s ∨ s' = s.logError (.fetchOutOfRange s.pc)) ∧
      exec (decode s.config.opMap w) s' = .next u ∧ ExecFrame (decode s.config.opMap w) s' u ∧
      t = u.pushHistory { pc := s.pc, word := w, instr := decode s.config.opMap w } := by
  rcases step_next h with ⟨h1, _⟩ | ⟨_, _, h1⟩ | ⟨_, _, _, h1⟩
  · rw [hh] at h1
    cases h1
  · obtain ⟨u, hu, ht⟩ := runWord_next h1
    exact ⟨s, u, _, .inl rfl, hu, exec_frame hu, ht⟩
  · obtain ⟨u, hu, ht⟩ := runWord_next h1
    exact ⟨_, u, _, .inr rfl, hu, exec_frame hu, ht⟩

/-- What a successful load_program found and leaves (20_memory.md R64). -/
theorem loadProgram_ok {words : List Word} {start : Nat} {s t : State} (h : loadProgram words start s = .ok t) :
    s.loadOpen = true ∧ start < s.config.imSize ∧ start + words.length ≤ s.config.imSize ∧
      t = { s with imem := Memory.writeAll [] start words, progLen := words.length, loaded := true } := by
  unfold loadProgram at h
  split at h
  · cases h
  · rename_i ho
    split at h
    · cases h
    · cases h
      exact ⟨by simpa using ho, by omega, by omega, rfl⟩

/-! ### No refusal: every row of the opcode table has its meaning -/

theorem exec_ne_refused (i : Instr) (s : State) (e : Refusal) : exec i s ≠ .refused e := by
  intro h
  rcases Bool.eq_false_or_eq_true s.config.strict with hs | hs
  · cases i with
    | lw rd rs1 imm =>
      rcases Nat.lt_or_ge (effectiveAddress s rs1 imm).toNat s.config.dmSize with hr | hr
      · rw [exec_lw_inRange hr] at h
        cases h
      · rw [exec_lw_strict hr hs] at h
        cases h
    | sw rs2 rs1 off =>
      rcases Nat.lt_or_ge (effectiveAddress s rs1 off).toNat s.config.dmSize with hr | hr
      · rw [exec_sw_inRange hr] at h
        cases h
      · rw [exec_sw_strict hr hs] at h
        cases h
    | beq rs1 rs2 off => rw [exec_beq] at h; cases h
    | bne rs1 rs2 off => rw [exec_bne] at h; cases h
    | reservedD raw | reservedE raw | reservedF raw =>
      have h' : invalidWord raw s = .refused e := h
      rw [invalidWord_strict hs] at h'
      cases h'
    | add | sub | and | or | xor | addi | jal | nop | halt => cases h
  · obtain ⟨t, ht⟩ := exec_graceful hs i
    rw [ht] at h
    cases h

theorem runWord_ne_refused (w : Word) (s : State) (e : Refusal) : runWord w s ≠ .refused e := by
  intro h
  rw [runWord_eq] at h
  cases hx : exec (decode s.config.opMap w) s with
  | next u => rw [hx] at h; cases h
  | fault f => rw [hx] at h; cases h
  | refused r => exact exec_ne_refused _ _ _ hx

theorem step_ne_refused (s : State) (e : Refusal) : step s ≠ .refused e := by
  intro h
  cases hh : s.halted with
  | true =>
    rw [step_halted hh] at h
    cases h
  | false =>
    rcases Nat.lt_or_ge s.pc.toNat s.config.imSize with hp | hp
    · rw [step_inRange hh hp] at h
      exact runWord_ne_refused _ _ _ h
    · rw [step_outOfRange hh hp] at h
      rcases Bool.eq_false_or_eq_true s.config.strict with hs | hs
      · rw [raise_strict hs] at h
        cases h
      · rw [raise_graceful hs] at h
        exact runWord_ne_refused _ _ _ h

/-! ### The host's run, one step at a time (40_core_cycle.md R155) -/

theorem run_halted {s : State} (h : s.halted = true) (n : Nat) : run n s = .finished true s := by
  cases n <;> simp [run, h]

theorem run_next {n : Nat} {s t : State} (hh : s.halted = false) (h : step s = .next t) :
    run (n + 1) s = run n t := by
  rw [run, hh, h]
  rfl

theorem run_fault {n : Nat} {s : State} {e : Fault} (hh : s.halted = false) (h : step s = .fault e) :
    run (n + 1) s = .fault e s := by
  rw [run, hh, h]
  rfl

end Sys2Proof.Machine
end

