-- ==== Sys2Proof/Tests/Slice0.lean ====
section
/-! SUPPORT. The model's own tests: what the well-formedness checks refuse, the decoding of words written out field by
field, one step per instruction with the values of 95_test_vectors.md section 2, and one witness for the hypotheses of
each statement. -/

namespace Sys2Proof.Tests

open Sys2Proof.Machine

/-! ### States and outcomes -/

/-- The reference configuration under the strict policy. -/
def strictConfig : Config := { Config.reference with strict := true }

/-- A created machine at `pc`, with the word `w` there and the listed registers written. -/
def machine (c : Config) (pc : Nat) (w : Word) (rs : List (RegIdx × Word)) : State :=
  { rs.foldl (fun s p => s.writeReg p.1 p.2) (State.create c) with
    pc := BitVec.ofNat 16 pc, imem := Memory.write [] pc w }

/-- The same under the reference configuration. -/
def at0 (pc : Nat) (w : Word) (rs : List (RegIdx × Word)) : State := machine Config.reference pc w rs

/-- The state with data word `a` set. -/
def withData (s : State) (a : Nat) (v : Word) : State := s.setDmem (s.dmem.write a v)

def flags (z n v : Bool) : Flags := { z := z, n := n, v := v }

/-- The step answers a next state with the property. -/
def nextIs (r : Result) (p : State → Bool) : Bool :=
  match r with
  | .next t => p t
  | .fault _ => false
  | .refused _ => false

/-- The step stops with the fault. -/
def faultIs (r : Result) (e : Fault) : Bool :=
  match r with
  | .next _ => false
  | .fault f => decide (f = e)
  | .refused _ => false

/-! ### WellFormed: each check refuses an ill-formed term -/

/-- A map of reserved slots alone. -/
def emptyMap : OpMap := { slots := Vector.replicate 16 .reservedD }

/-- A map that lists ADD twice. -/
def doubledMap : OpMap :=
  { slots := #v[.add, .add, .and, .or, .xor, .addi, .lw, .sw,
                .beq, .bne, .jal, .nop, .halt, .reservedD, .reservedE, .reservedF] }

theorem test_wf_standard_map : OpMap.standard.wf = true := by decide

theorem test_wf_refuses_doubled_map : doubledMap.wf = false := by decide

theorem test_wf_accepts_reference_config : Config.reference.wf = true := by decide

theorem test_wf_refuses_empty_memory_size : ({ Config.reference with imSize := 0 } : Config).wf = false := by decide

theorem test_wf_refuses_large_memory_size : ({ Config.reference with dmSize := 65537 } : Config).wf = false := by decide

theorem test_wf_instr_under_standard_map :
    ∀ i ∈ [Instr.add 1 2 3, .sub 1 2 3, .and 1 2 3, .or 1 2 3, .xor 1 2 3, .addi 1 2 15, .lw 1 2 15, .sw 1 2 15,
           .beq 1 2 15, .bne 1 2 15, .jal 1 255, .nop, .halt, .reservedD 0xD000, .reservedE 0xE7A3, .reservedF 0xFFFF],
      i.wellFormed OpMap.standard = true := by decide

theorem test_wf_refuses_instr_the_map_lacks :
    ∀ i ∈ [Instr.add 1 2 3, .sub 1 2 3, .and 1 2 3, .or 1 2 3, .xor 1 2 3, .addi 1 2 15, .lw 1 2 15, .sw 1 2 15,
           .beq 1 2 15, .bne 1 2 15, .jal 1 255, .nop, .halt, .reservedE 0xE7A3, .reservedF 0xFFFF],
      i.wellFormed emptyMap = false := by decide

theorem test_wf_refuses_raw_word_of_another_opcode :
    ∀ i ∈ [Instr.reservedD 0xCFFF, .reservedD 0xE000, .reservedE 0xD000, .reservedF 0x0000],
      i.wellFormed OpMap.standard = false := by decide

theorem test_wf_refuses_special_low_bits :
    wordWellFormed OpMap.standard 0xBFFF = false ∧ wordWellFormed OpMap.standard 0xC001 = false ∧
    wordWellFormed OpMap.standard 0xB000 = true ∧ wordWellFormed OpMap.standard 0xC000 = true := by decide

theorem test_wf_refuses_reserved_opcode :
    wordWellFormed OpMap.standard 0xD000 = false ∧ wordWellFormed OpMap.standard 0xAFFF = true := by decide

theorem test_wf_program : programWellFormed OpMap.standard [0x510A, 0x5205, 0x0312, 0xC000] = true ∧
    programWellFormed OpMap.standard [0x510A, 0xF123, 0xC000] = false := by decide

theorem test_wf_refuses_doubled_alu_code :
    ({ slots := #v[some .add, some .add, some .and, some .or, some .xor, some .eq, some .ne, some .sub] } : AluMap).wf =
      false := by decide

theorem test_wf_refuses_missing_alu_code :
    ({ slots := #v[some .add, some .sub, some .and, some .or, some .xor, some .eq, none, none] } : AluMap).wf = false := by
  decide

theorem test_wf_memory : Memory.wf [(1, 5), (4, 7)] = true ∧ Memory.wf [(4, 7), (1, 5)] = false ∧
    Memory.wf [(1, 5), (1, 5)] = false ∧ Memory.wf [(1, 0)] = false := by decide

/-! ### Decode: words written field by field from Table A (R92) and the opcode list (R98) -/

theorem test_decode_add : decode OpMap.standard 0b0000_0011_0001_0010 = .add 3 1 2 := by decide

theorem test_decode_sub : decode OpMap.standard 0b0001_1111_1110_1101 = .sub 15 14 13 := by decide

theorem test_decode_and : decode OpMap.standard 0b0010_0011_0001_0010 = .and 3 1 2 := by decide

theorem test_decode_or : decode OpMap.standard 0b0011_0011_0001_0010 = .or 3 1 2 := by decide

theorem test_decode_xor : decode OpMap.standard 0b0100_0110_0101_0000 = .xor 6 5 0 := by decide

theorem test_decode_addi : decode OpMap.standard 0b0101_1111_1111_1111 = .addi 15 15 15 := by decide

theorem test_decode_lw : decode OpMap.standard 0b0110_1111_0000_1111 = .lw 15 0 15 := by decide

theorem test_decode_sw : decode OpMap.standard 0b0111_1010_0101_1111 = .sw 10 5 15 := by decide

theorem test_decode_beq : decode OpMap.standard 0b1000_1010_1011_1111 = .beq 10 11 (-1) := by decide

theorem test_decode_bne : decode OpMap.standard 0b1001_0001_0010_1000 = .bne 1 2 (-8) := by decide

theorem test_decode_jal : decode OpMap.standard 0b1010_0010_1000_0000 = .jal 2 (-128) := by decide

theorem test_decode_nop : decode OpMap.standard 0b1011_0000_0000_0000 = .nop ∧
    decode OpMap.standard 0b1011_1111_1111_1111 = .nop := by decide

theorem test_decode_halt : decode OpMap.standard 0b1100_0000_0000_0000 = .halt ∧
    decode OpMap.standard 0b1100_0000_0000_0001 = .halt := by decide

theorem test_decode_reservedD : decode OpMap.standard 0b1101_0000_0000_0000 = .reservedD 0xD000 := by decide

theorem test_decode_reservedE : decode OpMap.standard 0b1110_0111_1010_0011 = .reservedE 0xE7A3 := by decide

theorem test_decode_reservedF : decode OpMap.standard 0b1111_1111_1111_1111 = .reservedF 0xFFFF := by decide

theorem test_encode_words :
    [Instr.add 3 1 2, .sub 15 14 13, .and 3 1 2, .or 3 1 2, .xor 3 1 2, .addi 1 0 10, .lw 2 0 0, .sw 10 5 15,
     .beq 10 11 (-1), .bne 1 2 7, .jal 1 3, .nop, .halt].map (encode OpMap.standard) =
    [0x0312, 0x1FED, 0x2312, 0x3312, 0x4312, 0x510A, 0x6200, 0x7A5F, 0x8ABF, 0x9127, 0xA103, 0xB000, 0xC000] := by
  decide

/-- The two NOP words decode alike, and their records keep the raw words apart (R102). -/
theorem test_decode_record : decodeRecord OpMap.standard 0xBFFF = { raw := 0xBFFF, instr := .nop, valid := true } ∧
    decodeRecord OpMap.standard 0xB000 ≠ decodeRecord OpMap.standard 0xBFFF ∧
    (decodeRecord OpMap.standard 0xF123).valid = false := by decide

theorem test_decode_table_word : decodeTableWord 16 0xC000 = some .halt ∧ decodeTableWord 16 0xD000 =
    some (.reservedD 0xD000) := by decide

/-! ### The ALU (95_test_vectors.md section 2.2) -/

theorem test_alu_add_carry : aluResult .add 0xFFFF 0x0001 = 0 ∧ aluFlags .add 0xFFFF 0x0001 = flags true false true ∧
    aluFlags .add 0x7FFF 0x0001 = flags false true false ∧ aluFlags .add 0xFFF0 0x000F = flags false true false ∧
    aluFlags .add 0xFFFF 0xFFFF = flags false true true := by decide

theorem test_alu_sub_wraps : aluResult .sub 0x0003 0x0005 = 0xFFFE ∧ aluResult .sub 0x0000 0x8000 = 0x8000 ∧
    aluFlags .sub 0x0000 0x0001 = flags false true false := by decide

theorem test_alu_eq_ne : aluResult .eq 0x1234 0x1234 = 1 ∧ aluFlags .eq 0x1234 0x1235 = flags true false false ∧
    aluResult .ne 0x8000 0x0000 = 1 ∧ aluFlags .ne 0x1234 0x1234 = flags true false false := by decide

/-! ### One step per instruction (95_test_vectors.md sections 2.3 to 2.6) -/

theorem test_add_wraps : nextIs (step (at0 0 0x0312 [(1, 0xFFFF), (2, 1)])) (fun t =>
    decide (t.readReg 3 = 0 ∧ t.flags = flags true false true ∧ t.pc = 1 ∧ t.cycles = 1 ∧ t.instret = 1)) = true := by
  decide

theorem test_add_reads_before_write : nextIs (step (at0 0 0x0111 [(1, 0x1234)])) (fun t =>
    decide (t.readReg 1 = 0x2468 ∧ t.flags = flags false false false)) = true := by decide

theorem test_sub_borrows : nextIs (step (at0 0 0x1312 [(1, 3), (2, 5)])) (fun t =>
    decide (t.readReg 3 = 0xFFFE ∧ t.flags = flags false true false)) = true := by decide

theorem test_sub_to_zero : nextIs (step (at0 0 0x1444 [(4, 0x00FF)])) (fun t =>
    decide (t.readReg 4 = 0 ∧ t.flags = flags true false false)) = true := by decide

theorem test_and_step : nextIs (step (at0 0 0x2312 [(1, 0x0F0F), (2, 0x00FF)])) (fun t =>
    decide (t.readReg 3 = 0x000F ∧ t.flags = flags false false false)) = true := by decide

theorem test_or_step : nextIs (step (at0 0 0x3312 [(1, 0x0F0F), (2, 0x00FF)])) (fun t =>
    decide (t.readReg 3 = 0x0FFF ∧ t.flags = flags false false false)) = true := by decide

theorem test_xor_step : nextIs (step (at0 0 0x4312 [(1, 0x0F0F), (2, 0x00FF)])) (fun t =>
    decide (t.readReg 3 = 0x0FF0 ∧ t.flags = flags false false false)) = true := by decide

theorem test_xor_negative : nextIs (step (at0 0 0x4650 [(5, 0xFFFF)])) (fun t =>
    decide (t.readReg 6 = 0xFFFF ∧ t.flags = flags false true false)) = true := by decide

theorem test_addi_is_unsigned : nextIs (step (at0 0 0x511F [(1, 10)])) (fun t =>
    decide (t.readReg 1 = 25 ∧ t.flags = flags false false false)) = true := by decide

theorem test_addi_carries : nextIs (step (at0 0 0x521F [(1, 0xFFF1)])) (fun t =>
    decide (t.readReg 2 = 0 ∧ t.flags = flags true false true)) = true := by decide

theorem test_lw_address_wraps : nextIs (step (withData (at0 0 0x6211 [(1, 0xFFFF)]) 0 0x1111)) (fun t =>
    decide (t.readReg 2 = 0x1111 ∧ t.errorSeen = false)) = true := by decide

theorem test_lw_out_of_range :
    nextIs (step (at0 0 0x623F [(3, 0x00F1), (2, 0x5555)])) (fun t => decide (t.readReg 2 = 0 ∧ t.pc = 1 ∧
      t.instret = 1 ∧ t.log = [.dataOutOfRange .read 0 (.lw 2 3 15) 0x0100])) = true ∧
    faultIs (step (machine strictConfig 0 0x623F [(3, 0x00F1), (2, 0x5555)]))
      (.dataOutOfRange .read 0 (.lw 2 3 15) 0x0100) = true := by decide

theorem test_sw_last_cell : nextIs (step (at0 0 0x743F [(3, 0x00F0), (4, 0xBEEF)])) (fun t =>
    decide (t.dmem = [(255, 0xBEEF)] ∧ t.log = [])) = true := by decide

theorem test_sw_out_of_range :
    nextIs (step (at0 0 0x743F [(3, 0x00F1), (4, 0xBEEF)])) (fun t => decide (t.dmem = [] ∧ t.pc = 1 ∧
      t.cycles = 1 ∧ t.instret = 1 ∧ t.log = [.dataOutOfRange .write 0 (.sw 4 3 15) 0x0100])) = true ∧
    faultIs (step (machine strictConfig 0 0x743F [(3, 0x00F1), (4, 0xBEEF)]))
      (.dataOutOfRange .write 0 (.sw 4 3 15) 0x0100) = true := by decide

theorem test_beq_taken : nextIs (step (at0 5 0x810E [])) (fun t =>
    decide (t.pc = 3 ∧ t.flags = flags false false false)) = true := by decide

theorem test_beq_untaken : nextIs (step (at0 5 0x810E [(1, 1)])) (fun t =>
    decide (t.pc = 6 ∧ t.flags = flags true false false)) = true := by decide

theorem test_bne_taken : nextIs (step (at0 5 0x910E [(1, 2)])) (fun t =>
    decide (t.pc = 3 ∧ t.flags = flags false false false)) = true := by decide

theorem test_bne_untaken : nextIs (step (at0 5 0x910E [])) (fun t =>
    decide (t.pc = 6 ∧ t.flags = flags true false false)) = true := by decide

theorem test_jal_backward : nextIs (step (at0 200 0xA280 [])) (fun t =>
    decide (t.readReg 2 = 201 ∧ t.pc = 72)) = true := by decide

theorem test_jal_wraps : nextIs (step (machine { Config.reference with imSize := 65536 } 65535 0xA301 [(3, 9)]))
    (fun t => decide (t.readReg 3 = 0 ∧ t.pc = 0)) = true := by decide

theorem test_nop_keeps_flags : nextIs (step ((at0 4 0xB000 []).setFlags (flags false true false))) (fun t =>
    decide (t.pc = 5 ∧ t.flags = flags false true false ∧ t.cycles = 1 ∧ t.instret = 1)) = true := by decide

theorem test_halt_keeps_pc : nextIs (step (at0 3 0xC000 [])) (fun t =>
    decide (t.pc = 3 ∧ t.halted = true ∧ t.cycles = 1 ∧ t.instret = 1)) = true := by decide

theorem test_halted_step_changes_nothing : nextIs (step ((at0 3 0xC000 []).setHalted)) (fun t =>
    decide (t = (at0 3 0xC000 []).setHalted)) = true := by decide

theorem test_reservedF_step :
    nextIs (step (at0 1 0xF123 [])) (fun t => decide (t.pc = 2 ∧ t.cycles = 1 ∧ t.instret = 0 ∧ t.halted = false ∧
      t.log = [.invalidInstruction 1 0xF123])) = true ∧
    faultIs (step (machine strictConfig 1 0xF123 [])) (.invalidInstruction 1 0xF123) = true := by decide

theorem test_reservedD_step : nextIs (step (at0 1 0xD000 [])) (fun t =>
    decide (t.pc = 2 ∧ t.instret = 0 ∧ t.errorSeen = true)) = true := by decide

theorem test_reservedE_step : nextIs (step (at0 1 0xE7A3 [])) (fun t =>
    decide (t.pc = 2 ∧ t.instret = 0 ∧ t.errorSeen = true)) = true := by decide

theorem test_fetch_out_of_range :
    nextIs (step ((at0 256 0xC000 []).setFlags (flags false true true))) (fun t => decide (t.pc = 257 ∧
      t.flags = flags true false false ∧ t.instret = 1 ∧ t.halted = false ∧ t.log = [.fetchOutOfRange 256])) = true ∧
    faultIs (step (machine strictConfig 256 0xC000 [])) (.fetchOutOfRange 256) = true := by decide

theorem test_history_record : nextIs (step (at0 7 0xB000 [])) (fun t =>
    decide (t.history = [{ pc := 7, word := 0xB000, instr := .nop }])) = true := by decide

theorem test_with_fetch_word_runs : nextIs (step (State.reset.withFetchWord 16 0x510A)) (fun t =>
    decide (t.readReg 1 = 10 ∧ t.pc = 1)) = true := by decide

/-! ### The host's operations (95_test_vectors.md section 2.7) and the assembler (2.8) -/

theorem test_load_program_bounds :
    loadProgram [0xC000] 256 State.reset = .error (.failed .capacityExceeded) ∧
    loadProgramBool [0xC000] 256 State.reset = some (false, State.reset) ∧
    (loadProgramBool [0xC000] 255 State.reset).map Prod.fst = some true ∧
    (loadProgramBool [0, 0, 0] 0 (machine { Config.reference with imSize := 2 } 0 0 [])).map Prod.fst = some false ∧
    (loadProgramBool [0, 0] 0 (machine { Config.reference with imSize := 2 } 0 0 [])).map Prod.fst = some true := by
  decide

theorem test_load_program_at_start :
    (loadProgramBool [0xC000] 3 (at0 0 0x5111 [])).map (fun r => r.2.imem) = some [(3, 0xC000)] := by decide

theorem test_load_program_refused_after_a_step_or_a_load :
    loadProgram [0xC000] 0 (State.reset.countCycle) = .error .noMove ∧
    loadProgram [0xC000] 0 (State.reset.setHalted) = .error .noMove ∧
    (loadProgramBool [0xC000] 0 State.reset).bind (fun r => loadProgramBool [0xB000] 0 r.2) = none := by decide

theorem test_reset_keeps_program : (withData (at0 0 0x5109 [(1, 9)]) 0 9).hostReset.imem = [(0, 0x5109)] ∧
    (withData (at0 0 0x5109 [(1, 9)]) 0 9).hostReset.dmem = [] ∧
    (withData (at0 0 0x5109 [(1, 9)]) 0 9).hostReset.readReg 1 = 0 := by decide

theorem test_write_register_zero : (RegFile.write State.reset.regs 0 123).1 = false ∧
    RegFile.read (RegFile.write State.reset.regs 0 123).2 0 = 0 := by decide

/-- Scenario E: a block at base 16 of 4 cells that hold 0xAAAA. -/
theorem test_block_out_of_range :
    let c : Config := { Config.reference with dmBase := 16, dmSize := 4 }
    let m := Memory.writeAll [] 0 [0xAAAA, 0xAAAA, 0xAAAA, 0xAAAA]
    readWord c m 20 = none ∧ readWord c m 15 = none ∧ readWord c m 19 = some 0xAAAA ∧
      readWord c m 16 = some 0xAAAA := by decide

theorem test_serialise : serialise [0x510A, 0x5205, 0x0312, 0xC000] =
    [0x0A, 0x51, 0x05, 0x52, 0x12, 0x03, 0x00, 0xC0] := by decide

/-- P3, with its label, a comment and mixed case. -/
theorem test_assemble_p3 : assemble OpMap.standard
    ("addi x1, x0, 3\nADDI x2, x0, 1\naddi x3 x0 0 # sum\nloop:\n add x3, x3, x1\n" ++
     "sub x1, x1, x2\nbne x1, x0, loop\n\nhalt").toList =
    .assembled [0x5103, 0x5201, 0x5300, 0x0331, 0x1112, 0x910E, 0xC000] [("loop".toList, 3)] [] := by decide

theorem test_assemble_aliases_and_hex : assemble OpMap.standard
    "add a0, ra, sp\naddi t0, zero, 1\naddi x1, x0, 0xA\nlw x15, 15(x0)\nsw a0, 15(t0)".toList =
    .assembled [0x0A12, 0x5501, 0x510A, 0x6F0F, 0x7A5F] [] [] := by decide

theorem test_assemble_failing_line : assemble OpMap.standard "foo x1, x2\nhalt\naddi x1, x0, 16".toList =
    .assembled [0xC000] [] [(1, .invalidOperand), (3, .invalidOperand)] := by decide

theorem test_assemble_label_out_of_reach : labelField 4 12 2 = 0xA ∧ labelField 8 6 10 = 0xFC := by decide

theorem test_assemble_refusals :
    assemble OpMap.standard "a: nop\na: halt".toList = .refused (.duplicateLabel "a".toList) ∧
    assemble OpMap.standard "add X1, x2, x3".toList = .refused (.upperCaseRegister "X1".toList) := by decide

/-- A bad label fails its line alone, and an instruction on the line keeps its address (R116): `end` is at 2. -/
theorem test_assemble_bad_label :
    assemble OpMap.standard ": nop\nbeq x0, x0, end\nend: halt\na b:".toList =
      .assembled [0x8001, 0xC000] [("end".toList, 2)] [(1, .invalidOperand), (4, .invalidOperand)] := by decide

/-- The first error of a line wins (log 34): an upper-case register behind one does not refuse the source. -/
theorem test_assemble_first_error_wins :
    assemble OpMap.standard "foo X1\nadd y1, X1, x2\nadd X1, x2\nhalt".toList =
      .assembled [0xC000] [] [(1, .invalidOperand), (2, .invalidOperand), (3, .invalidOperand)] ∧
    assemble OpMap.standard "lw x1, 16(X2)".toList = .refused (.upperCaseRegister "X2".toList) := by decide

theorem test_source_lines :
    sourceLine plainNames (.lw 2 0 3) = "lw x2, 3(x0)".toList ∧
    sourceLine abiNames (.beq 1 15 0x8) = "beq ra, a7, -8".toList ∧
    sourceLine plainNames (.jal 10 0x7F) = "jal x10, 127".toList ∧
    sourceLine plainNames (.add 1 2 3) = "add x1, x2, x3".toList := by decide

theorem test_assemble_label_case : assemble OpMap.standard "Loop: nop\nloop: jal x0, Loop".toList =
    .assembled [0xB000, 0xA0FF] [("Loop".toList, 0), ("loop".toList, 1)] [] := by decide

/-! ### Witnesses: the hypotheses of each statement hold together, each clause at a boundary of its range -/

theorem witness_RegisterFileReadsBackWrites : (1 : RegIdx) ≠ 0 ∧ (15 : RegIdx) ≠ 0 ∧ (2 : RegIdx) ≠ 1 ∧ 15 < 16 ∧
    16 ≤ 16 ∧ regOfName "x16".toList = none ∧ regOfName "x15".toList = some 15 := by decide

theorem witness_RegisterZeroDestination :
    (effectiveAddress (at0 0 0 [(3, 0x00F0)]) 3 15).toNat < (at0 0 0 [(3, 0x00F0)]).config.dmSize := by decide

theorem witness_ImmediateAndOffsetFields : OpMap.standard.slot (opcodeField 0x5FFF) = .addi ∧ (15 : RegIdx) ≠ 0 ∧
    OpMap.standard.slot (opcodeField 0x6F0F) = .lw ∧ OpMap.standard.slot (opcodeField 0x7A50) = .sw := by decide

theorem witness_BranchAndJumpOffsets :
    OpMap.standard.slot (opcodeField 0x8127) = .beq ∧ (at0 0 0 [(1, 5), (2, 5)]).readReg 1 =
      (at0 0 0 [(1, 5), (2, 5)]).readReg 2 ∧
    OpMap.standard.slot (opcodeField 0x9128) = .bne ∧ (at0 0 0 [(1, 5)]).readReg 1 ≠ (at0 0 0 [(1, 5)]).readReg 2 ∧
    OpMap.standard.slot (opcodeField 0xA280) = .jal := by decide

theorem witness_FormatsPlaceFields :
    ([0, 1, 2, 3, 4, 5, 6, 7, 8, 9, 10, 11, 12] : List Nat).map (fun k =>
      OpMap.standard.slot (BitVec.ofNat 4 ((BitVec.ofNat 16 (k * 4096 + 4095) : Word).toNat / 4096))) =
    [.add, .sub, .and, .or, .xor, .addi, .lw, .sw, .beq, .bne, .jal, .nop, .halt] := by decide

theorem witness_DecodeAndEncodeAgree : (Instr.addi 15 15 15).wellFormed OpMap.standard = true ∧
    OpMap.standard.wf = true ∧ (decode OpMap.standard 0xC000).mnemonic.valid = true ∧
    specialLowBitsSet OpMap.standard 0xC000 = false ∧ specialLowBitsSet OpMap.standard 0xAFFF = false := by decide

theorem witness_ReservedWords : 0xD000 ≤ (0xD000 : Word).toNat ∧ (0xDFFF : Word).toNat < 0xE000 ∧
    0xE000 ≤ (0xE000 : Word).toNat ∧ (0xEFFF : Word).toNat < 0xF000 ∧ 0xF000 ≤ (0xF000 : Word).toNat := by decide

theorem witness_AluResultsAndFlags : (0 : Word).toNat < (0xFFFF : Word).toNat ∧ 15 < 16 ∧ AluOp.sub ≠ .add := by decide

/-- LW and SW in range at the last cell, the address 15 + 0x00F0. -/
theorem witness_LoadAndStoreInRange :
    let s := at0 0 0 [(3, 0x00F0)]
    s.dmem.wf = true ∧ ((s.readReg 3).toNat + (15 : BitVec 4).toNat) % 65536 < s.config.dmSize := by decide

/-- LW and SW out of range at the first missing cell, under either policy. -/
theorem witness_LoadAndStoreOutOfRange :
    (at0 0 0 [(3, 0x00F1)]).config.dmSize ≤ (effectiveAddress (at0 0 0 [(3, 0x00F1)]) 3 15).toNat ∧
    (at0 0 0 [(3, 0x00F1)]).config.strict = false ∧
    (machine strictConfig 0 0 [(3, 0x00F1)]).config.dmSize ≤
      (effectiveAddress (machine strictConfig 0 0 [(3, 0x00F1)]) 3 15).toNat ∧
    (machine strictConfig 0 0 [(3, 0x00F1)]).config.strict = true := by decide

theorem witness_InvalidWord : Instr.reservedE 0xE7A3 ∈
      [Instr.reservedD 0xE7A3, .reservedE 0xE7A3, .reservedF 0xE7A3] ∧
    State.reset.config.strict = false ∧ (State.create strictConfig).config.strict = true := by decide

theorem witness_FrameOfRegisterInstructions :
    ∀ i ∈ [Instr.add 1 2 3, .sub 1 2 3, .and 1 2 3, .or 1 2 3, .xor 1 2 3, .addi 1 2 15, .lw 1 2 15, .jal 1 128],
      nextIs (exec i State.reset) (fun _ => true) = true ∧
      (i = .lw 1 2 15 → (effectiveAddress State.reset 2 15).toNat < State.reset.config.dmSize) := by decide

theorem witness_FrameOfStore : State.reset.dmem.wf = true ∧
    nextIs (exec (.sw 1 2 15) State.reset) (fun _ => true) = true ∧
    (5 : Nat) ≠ (effectiveAddress State.reset 2 15).toNat ∧
    (effectiveAddress State.reset 2 15).toNat < State.reset.config.dmSize ∧
    (at0 0 0 [(3, 0x00F1)]).dmem.wf = true ∧
    nextIs (exec (.sw 1 3 15) (at0 0 0 [(3, 0x00F1)])) (fun _ => true) = true ∧
    (at0 0 0 [(3, 0x00F1)]).config.dmSize ≤ (effectiveAddress (at0 0 0 [(3, 0x00F1)]) 3 15).toNat := by decide

theorem witness_FrameOfInstructionsWithoutDestination :
    ∀ i ∈ [Instr.beq 1 2 8, .bne 1 2 8, .nop, .halt, .reservedD 0xD000, .reservedE 0xD000, .reservedF 0xD000],
      nextIs (exec i State.reset) (fun _ => true) = true := by decide

theorem witness_PcAdvancePerClass : ∃ t, exec (.beq 0 0 15) State.reset = .next t := ⟨_, rfl⟩

/-- At the last address of Instruction Memory, a word that completes and one that faults under the strict policy. -/
theorem witness_StepRunsTheDecodedInstruction :
    (at0 255 0x5FFF []).halted = false ∧ (at0 255 0x5FFF []).pc.toNat < (at0 255 0x5FFF []).config.imSize ∧
    nextIs (exec (decode OpMap.standard ((at0 255 0x5FFF []).imem.read 255)) (at0 255 0x5FFF [])) (fun _ => true) = true ∧
    faultIs (exec (decode OpMap.standard 0xF123) (machine strictConfig 255 0xF123 []))
      (.invalidInstruction 255 0xF123) = true := by decide

/-- An instruction that is no branch and no jump, HALT, and the two untaken branches. -/
theorem witness_StagesFiveAndSix : (at0 5 0x810E [(1, 1)]).halted = false ∧
    isBranch .nop = false ∧ isJump .nop = false ∧ nextIs (step (at0 5 0xB000 [])) (fun _ => true) = true ∧
    isBranch .halt = false ∧ isJump .halt = false ∧ nextIs (step (at0 3 0xC000 [])) (fun _ => true) = true ∧
    nextIs (step (at0 5 0x810E [(1, 1)])) (fun _ => true) = true ∧
    decode OpMap.standard ((at0 5 0x810E []).imem.read 5) = .beq 1 0 14 ∧
    (at0 5 0x810E [(1, 1)]).readReg 1 ≠ (at0 5 0x810E [(1, 1)]).readReg 0 ∧
    nextIs (step (at0 5 0x910E [])) (fun _ => true) = true ∧
    decode OpMap.standard ((at0 5 0x910E []).imem.read 5) = .bne 1 0 14 ∧
    (at0 5 0x910E []).readReg 1 = (at0 5 0x910E []).readReg 0 := by decide

theorem witness_BoundedBuffer : ([] : List Fault).length < 1 ∧
    [Fault.fetchOutOfRange 256].length = 1 ∧ 1 ≤ 1 := by decide

theorem witness_FetchOutOfRange : (at0 256 0 []).halted = false ∧
    (at0 256 0 []).config.imSize ≤ (at0 256 0 []).pc.toNat ∧ (at0 256 0 []).config.strict = false ∧
    (at0 256 0 []).config.opMap = OpMap.standard ∧
    (machine strictConfig 256 0 []).config.imSize ≤ (machine strictConfig 256 0 []).pc.toNat ∧
    (machine strictConfig 256 0 []).halted = false ∧ (machine strictConfig 256 0 []).config.strict = true := by decide

theorem witness_GracefulStep : State.reset.config.strict = false := by decide

/-- Under the strict policy: a fetch at 256, a reserved word at 255, LW and SW at the address 256, an ADD, and LW and SW
at the address 255. -/
theorem witness_StrictStep : strictConfig.strict = true ∧ (State.create strictConfig).halted = false ∧
    strictConfig.imSize ≤ (machine strictConfig 256 0 []).pc.toNat ∧
    (machine strictConfig 255 0xD000 []).pc.toNat < strictConfig.imSize ∧
    (decode strictConfig.opMap ((machine strictConfig 255 0xD000 []).imem.read 255)).mnemonic.valid = false ∧
    decode strictConfig.opMap ((machine strictConfig 0 0x623F [(3, 0x00F1)]).imem.read 0) = .lw 2 3 15 ∧
    strictConfig.dmSize ≤ (effectiveAddress (machine strictConfig 0 0x623F [(3, 0x00F1)]) 3 15).toNat ∧
    decode strictConfig.opMap ((machine strictConfig 0 0x743F [(3, 0x00F1)]).imem.read 0) = .sw 4 3 15 ∧
    strictConfig.dmSize ≤ (effectiveAddress (machine strictConfig 0 0x743F [(3, 0x00F1)]) 3 15).toNat ∧
    decode strictConfig.opMap ((machine strictConfig 255 0 []).imem.read 255) = .add 0 0 0 ∧
    (effectiveAddress (machine strictConfig 0 0x623F [(3, 0x00F0)]) 3 15).toNat < strictConfig.dmSize := by decide

theorem witness_OnlyHaltSets : nextIs (exec .halt State.reset) (fun _ => true) = true ∧
    State.reset.setHalted.halted = true ∧ nextIs (step State.reset.setHalted) (fun _ => true) = true := by decide

theorem witness_InstructionMemoryIsReadOnly : nextIs (step State.reset) (fun _ => true) = true ∧
    Memory.read [(1, 7)] State.reset.pc.toNat = State.reset.imem.read State.reset.pc.toNat ∧
    State.reset.halted = false := by decide

theorem witness_FetchGivesTheLoadedWord : (at0 255 0 []).pc.toNat < (at0 255 0 []).config.imSize ∧
    (∃ t, loadProgram [0xC000] 255 State.reset = .ok t) ∧
    nextIs (step State.reset) (fun _ => true) = true := ⟨by decide, ⟨_, rfl⟩, by decide⟩

/-- A block of cells 16 to 19: the addresses below and above it, under either policy, and the core's address 256. -/
theorem witness_OutOfRangeAccess :
    let c : Config := { Config.reference with dmBase := 16, dmSize := 4 }
    15 < c.dmBase ∧ c.dmBase + c.dmSize ≤ 20 ∧ c.strict = false ∧
    (at0 0 0 [(3, 0x00F1)]).config.strict = false ∧
    (at0 0 0 [(3, 0x00F1)]).config.dmSize ≤ (effectiveAddress (at0 0 0 [(3, 0x00F1)]) 3 15).toNat ∧
    (at0 256 0 []).config.imSize ≤ (at0 256 0 []).pc.toNat := by decide

theorem witness_DataMemoryBlock :
    let c : Config := { Config.reference with dmBase := 16, dmSize := 4 }
    let d : Config := { strictConfig with dmBase := 16, dmSize := 4 }
    Memory.wf [(3, 0xAAAA)] = true ∧ c.dmBase ≤ 16 ∧ 19 < c.dmBase + c.dmSize ∧ 15 < c.dmBase ∧
    c.dmBase + c.dmSize ≤ 20 ∧ c.strict = false ∧ 15 < d.dmBase ∧ d.dmBase + d.dmSize ≤ 20 ∧ d.strict = true := by
  decide

/-- A store of x1 to cell 255 and a load of the same cell, and of cell 0. -/
theorem witness_LoadSeesTheMostRecentStore :
    let s := at0 0 0 [(1, 9), (3, 0x00F0)]
    s.dmem.wf = true ∧ (2 : RegIdx) ≠ 0 ∧ (effectiveAddress s 3 15).toNat < s.config.dmSize ∧
    nextIs (exec (.sw 1 3 15) s) (fun t => decide ((effectiveAddress t 3 15).toNat < t.config.dmSize ∧
      effectiveAddress t 3 15 = effectiveAddress s 3 15 ∧ (effectiveAddress t 0 0).toNat < t.config.dmSize ∧
      effectiveAddress t 0 0 ≠ effectiveAddress s 3 15)) = true := by decide

/-- A state that has run: an error in the log, a data word, a register. -/
def busy : State :=
  { withData (at0 7 0x7100 [(1, 9)]) 3 5 with
    cycles := 4, instret := 3, errorSeen := true, log := [.invalidInstruction 1 0xF123] }

theorem witness_StepKeepsTheInvariant : busy.Inv ∧ ∃ t, step busy = .next t := by
  refine ⟨?_, ⟨_, rfl⟩⟩
  unfold State.Inv
  decide

theorem witness_HostOperationsKeepTheInvariant : busy.hostReset.Inv ∧
    ∃ t, loadProgram [0xC000] 255 busy.hostReset = .ok t := by
  refine ⟨?_, ⟨_, rfl⟩⟩
  unfold State.Inv
  decide

theorem witness_RunsCannotObserve : SameArch busy { busy with flags := flags true false true, cycles := 0, log := [] } ∧
    busy ≠ { busy with flags := flags true false true, cycles := 0, log := [] } :=
  ⟨⟨rfl, rfl, rfl, rfl, rfl, rfl⟩, by decide⟩

theorem witness_RunsKeepConfiguration : busy.errorSeen = true ∧ ∃ t, Sys2Proof.core.run 2 busy = .next t :=
  ⟨rfl, ⟨_, rfl⟩⟩

/-- For each premise on the control bundle, an instruction that meets it and completes. -/
theorem witness_ControlTable :
    (generateControlSignals (.sw 1 2 3)).regWrite = false ∧ nextIs (exec (.sw 1 2 3) busy) (fun _ => true) = true ∧
    (generateControlSignals (.jal 1 2)).aluOp = none ∧ nextIs (exec (.jal 1 2) busy) (fun _ => true) = true ∧
    (generateControlSignals (.lw 1 2 3)).memWrite = false ∧ nextIs (exec (.lw 1 2 3) busy) (fun _ => true) = true ∧
    (generateControlSignals .nop).pcUpdate = .increment ∧ nextIs (exec .nop busy) (fun _ => true) = true ∧
    (generateControlSignals .halt).pcUpdate = .halt ∧ nextIs (exec .halt busy) (fun _ => true) = true ∧
    (generateControlSignals (.beq 1 2 3)).pcUpdate ≠ .halt ∧
    nextIs (exec (.beq 1 2 3) busy) (fun _ => true) = true := by decide

theorem witness_ControlPredicates : (Instr.reservedD 0xD000).mnemonic.valid = false := by decide

/-- A well-formed ALU-code map other than the standard one, and a valid instruction. -/
theorem witness_AluCodes :
    let m : AluMap := { slots := #v[none, some .ne, some .eq, some .xor, some .or, some .and, some .sub, some .add] }
    m.wf = true ∧ m ≠ AluMap.standard ∧ m.opOf 0 = none ∧ (Instr.add 1 2 3).mnemonic.valid = true ∧
    busy.config.aluMap.wf = true := by decide

theorem witness_LoadProgram : State.reset.loadOpen = true ∧ 255 < State.reset.config.imSize ∧
    255 + [0xC000].length ≤ State.reset.config.imSize ∧ State.reset.config.imSize ≤ 256 ∧
    State.reset.config.imSize < 255 + [0xC000, 0].length ∧ busy.loadOpen = false := by decide

theorem witness_LoadsOnlyInTheLaunchOrder : (∃ t, loadProgram [0xC000] 255 State.reset = .ok t) ∧
    ∃ t, step State.reset = .next t := ⟨⟨_, rfl⟩, ⟨_, rfl⟩⟩

theorem witness_LaunchIsRepeatable : busy.config = State.reset.config ∧ busy ≠ State.reset ∧
    (∃ t, launch [0x510A, 0xC000] busy = .ok t) ∧ ∃ t, launch [0x510A, 0xC000] State.reset = .ok t :=
  ⟨rfl, by decide, ⟨_, rfl⟩, ⟨_, rfl⟩⟩

theorem witness_RunIsRepeatedStep : busy.setHalted.halted = true ∧ busy.config.strict = false ∧
    (∃ b t, run 2 busy = .finished b t) ∧
    run 2 (machine strictConfig 1 0xF123 []) =
      .fault (.invalidInstruction 1 0xF123) (machine strictConfig 1 0xF123 []) ∧
    Sys2Proof.core.run 0 (machine strictConfig 1 0xF123 []) = .next (machine strictConfig 1 0xF123 []) ∧
    faultIs (step (machine strictConfig 1 0xF123 [])) (.invalidInstruction 1 0xF123) = true :=
  ⟨by decide, by decide, ⟨_, _, rfl⟩, by decide, rfl, by decide⟩

theorem witness_ProgramFileRoundTrip : (1 : Nat) < ([0x510A, 0xC000] : List Word).length := by decide

/-- At address 200: labels at the two ends of a branch's reach and of a jump's, with the registers equal and unequal. -/
theorem witness_LabelOffsets :
    let s := at0 200 0 [(1, 5), (2, 5)]
    s.pc.toNat = 200 ∧ -8 ≤ (192 : Int) - 200 ∧ (207 : Int) - 200 ≤ 7 ∧ -128 ≤ (72 : Int) - 200 ∧
    (327 : Int) - 200 ≤ 127 ∧ 327 < 65536 ∧ s.readReg 1 = s.readReg 2 ∧ s.readReg 1 ≠ s.readReg 3 := by decide

/-- A line that gives a word, lines that fail, a line that is refused and is the first one, a bad label; and a well-formed
instruction of each of the two name tables. -/
theorem witness_EveryLine :
    encodeLines OpMap.standard []
      [{ number := 1, address := 0, text := "halt".toList, badLabel := false },
       { number := 2, address := 1, text := "nop".toList, badLabel := true },
       { number := 3, address := 2, text := "foo X1".toList, badLabel := false }] =
    .ok ([0xC000], [(2, .invalidOperand), (3, .invalidOperand)]) ∧
    encodeLines OpMap.standard []
      [{ number := 1, address := 0, text := "foo".toList, badLabel := false },
       { number := 2, address := 1, text := "add X1, x2, x3".toList, badLabel := false },
       { number := 3, address := 2, text := "add X4, x2, x3".toList, badLabel := false }] =
    .error (.upperCaseRegister "X1".toList) ∧
    (Instr.jal 15 0x80).mnemonic.valid = true ∧ (Instr.jal 15 0x80).wellFormed OpMap.standard = true ∧
    plainNames ∈ [plainNames, abiNames] ∧ abiNames ∈ [plainNames, abiNames] := by decide

/-- A label repeated from an earlier line, and one recorded before. -/
theorem witness_PassOne :
    scan ["a: nop".toList, "a: nop".toList] 1 0 [] = .error (.duplicateLabel "a".toList) ∧
    scan ["b: nop".toList, "a:".toList] 1 0 [("a".toList, 7)] = .error (.duplicateLabel "a".toList) := by decide

/-- Lines with no repeated label. -/
theorem witness_PassOne_fresh :
    (["b:".toList, ": nop".toList, "".toList, "c: halt".toList].filterMap lineLabel = ["b".toList, "c".toList]) ∧
    ["b".toList, "c".toList].Nodup ∧ (∀ l ∈ ["b".toList, "c".toList], l ∉ ["a".toList]) := by decide

theorem witness_PassOne_places :
    scan ["b:".toList, ": nop".toList, "".toList, "c: halt".toList] 1 0 [("a".toList, 0)] =
      .ok ([("a".toList, 0), ("b".toList, 0), ("c".toList, 1)],
        [{ number := 2, address := 0, text := "nop".toList, badLabel := true },
         { number := 4, address := 1, text := "halt".toList, badLabel := false }]) := by decide

end Sys2Proof.Tests
end

section
/-! O3: zero extension, sign extension and `mask16` (00_scope.md R12). The model's `s(f)` is the library's
two's-complement reading of the field at every width, so its range and its extension come from the library. -/

namespace Sys2Proof.Machine

theorem signedValue_eq_toInt {n : Nat} (f : BitVec n) : signedValue f = f.toInt := by
  rw [signedValue, BitVec.toInt_eq_toNat_cond]
  cases n with
  | zero => simp [BitVec.of_length_zero]
  | succ k =>
    have half_iff : f.toNat < 2 ^ k ↔ 2 * f.toNat < 2 ^ (k + 1) := by omega
    simp [half_iff]

theorem sext16_eq_signExtend {n : Nat} (f : BitVec n) : sext16 f = f.signExtend 16 := by
  rw [sext16, signedValue_eq_toInt, mask16, BitVec.signExtend]

theorem toInt_sext16 {n : Nat} (h : n ≤ 16) (f : BitVec n) : (sext16 f).toInt = signedValue f := by
  rw [sext16_eq_signExtend, BitVec.toInt_signExtend_of_le h, signedValue_eq_toInt]

theorem neg_two_pow_le_signedValue {n : Nat} (f : BitVec n) : -2 ^ (n - 1) ≤ signedValue f :=
  signedValue_eq_toInt f ▸ BitVec.le_toInt f

theorem signedValue_lt_two_pow {n : Nat} (f : BitVec n) : signedValue f < 2 ^ (n - 1) :=
  signedValue_eq_toInt f ▸ BitVec.toInt_lt

/-- Settles O3: each field's five facts are the lemmas for every width, taken at the widths 4 and 8. -/
theorem fieldExtensionAndMasking : Obligations.FieldExtensionAndMasking := by
  unfold Obligations.FieldExtensionAndMasking
  refine ⟨fun f => ?_, fun f => ?_, toNat_mask16, rfl⟩
  · have upper : signedValue f < 8 := signedValue_lt_two_pow f
    exact ⟨toNat_zext16 (by decide) f, rfl, neg_two_pow_le_signedValue f, by omega, toInt_sext16 (by decide) f⟩
  · have upper : signedValue f < 128 := signedValue_lt_two_pow f
    exact ⟨toNat_zext16 (by decide) f, rfl, neg_two_pow_le_signedValue f, by omega, toInt_sext16 (by decide) f⟩

end Sys2Proof.Machine
end

section
/-! O1: the register file read after a write, zeroed, and reached by the host (10_state.md R24). Whether a host access is
reported turns only on whether its index or name resolves to a register. -/

namespace Sys2Proof.Machine

theorem RegFile.read_write_self {i : RegIdx} (h : i ≠ 0) (r : RegFile) (v : Word) :
    (r.write i v).2.read i = v := by
  rw [RegFile.read_write, if_pos ⟨rfl, h⟩]

theorem RegFile.read_write_other {i j : RegIdx} (h : j ≠ i) (r : RegFile) (v : Word) :
    (r.write i v).2.read j = r.read j := by
  rw [RegFile.read_write, if_neg fun both => h both.1]

theorem RegFile.read_resetAll (r : RegFile) (i : RegIdx) : r.resetAll.read i = 0 := by
  by_cases h : i = 0
  · rw [h, RegFile.read_zero]
  · rw [RegFile.read_of_ne h]
    exact Vector.getElem_replicate i.isLt

theorem RegRef.resolve_index_of_lt {n : Nat} (h : n < 16) : (RegRef.index n).resolve = some ⟨n, h⟩ := dif_pos h

theorem RegRef.resolve_index_of_le {n : Nat} (h : 16 ≤ n) : (RegRef.index n).resolve = none := dif_neg (Nat.not_lt.2 h)

/-- An access that resolves acts on its register, unreported. -/
theorem RegFile.host_of_resolve_some {ref : RegRef} {i : RegIdx} (h : ref.resolve = some i) (r : RegFile) (v : Word) :
    r.hostRead ref = (r.read i, false) ∧ r.hostWrite ref v = (r.write i v, false) := by
  simp only [RegFile.hostRead, RegFile.hostWrite, h, and_self]

/-- An access that does not resolve reads 0, fails to write, changes nothing and is reported. -/
theorem RegFile.host_of_resolve_none {ref : RegRef} (h : ref.resolve = none) (r : RegFile) (v : Word) :
    r.hostRead ref = (0, true) ∧ r.hostWrite ref v = ((false, r), true) := by
  simp only [RegFile.hostRead, RegFile.hostWrite, h, and_self]

/-- Settles O1: the first four clauses are the read-after-write rules of the register file, the last three the two
outcomes of resolving what the host presents. -/
theorem registerFileReadsBackWrites : Obligations.RegisterFileReadsBackWrites := by
  unfold Obligations.RegisterFileReadsBackWrites
  intro r
  refine ⟨fun i v hi => ⟨?_, ?_, fun j hj => r.read_write_other hj _⟩, fun v => ?_, r.read_zero, r.read_resetAll,
    fun n h => r.host_of_resolve_some (RegRef.resolve_index_of_lt h),
    fun n v h => r.host_of_resolve_none (RegRef.resolve_index_of_le h) v,
    fun n v h => r.host_of_resolve_none (ref := .name n) h v⟩
  · rw [RegFile.write_of_ne hi]
  · rw [RegFile.read_write_self hi, toNat_mask16]
  · rw [RegFile.write_zero]
    exact ⟨rfl, fun _ => rfl⟩

end Sys2Proof.Machine
end

section
/-! O2: register 0 as a destination (10_state.md R25). The field `rd` reaches the state only through `writeReg`, which
changes `regs` alone and for register 0 nothing: so the outcome with `rd = 0` is the one with any other `rd`, but for the
registers. -/

namespace Sys2Proof.Machine

/-- `x` completes from `s` without an error or a register change, and otherwise as `y` does. -/
def CompletesLikeWithoutResult (s : State) (x y : Result) : Prop :=
  ∃ t u, x = .next t ∧ y = .next u ∧ SameRegs s t ∧ SameErrors s t ∧ t = { u with regs := s.regs }

theorem arith_zero_discards_result (op : AluOp) (rd : RegIdx) (a b : Word) (s : State) :
    CompletesLikeWithoutResult s (arith op 0 a b s) (arith op rd a b s) := by
  refine ⟨_, _, rfl, rfl, fun j => ?_, ⟨rfl, rfl⟩, rfl⟩
  rw [State.writeReg_zero]
  rfl

theorem execJal_zero_discards_result (rd : RegIdx) (off : BitVec 8) (s : State) :
    CompletesLikeWithoutResult s (execJal 0 off s) (execJal rd off s) := by
  refine ⟨_, _, rfl, rfl, fun j => ?_, ⟨rfl, rfl⟩, rfl⟩
  rw [State.writeReg_zero]
  rfl

theorem exec_lw_zero_discards_result {s : State} {a : RegIdx} {imm : BitVec 4}
    (h : (effectiveAddress s a imm).toNat < s.config.dmSize) (rd : RegIdx) :
    CompletesLikeWithoutResult s (exec (.lw 0 a imm) s) (exec (.lw rd a imm) s) := by
  rw [exec_lw_inRange h, exec_lw_inRange h, State.writeReg_zero]
  exact ⟨_, _, rfl, rfl, fun _ => rfl, ⟨rfl, rfl⟩, rfl⟩

/-- Settles O2: six of the seven instructions are `arith`, the seventh is JAL; LW in range has its own clause. -/
theorem registerZeroDestinationDiscardsOnlyTheResult :
    Obligations.RegisterZeroDestinationDiscardsOnlyTheResult := by
  unfold Obligations.RegisterZeroDestinationDiscardsOnlyTheResult
  refine ⟨fun r v => ⟨by rw [RegFile.write_zero], RegFile.read_zero _⟩, fun s a b rd imm off =>
    ⟨?_, fun h => exec_lw_zero_discards_result h rd⟩⟩
  simp only [List.forall_mem_cons]
  exact ⟨arith_zero_discards_result .add _ _ _ _, arith_zero_discards_result .sub _ _ _ _,
    arith_zero_discards_result .and _ _ _ _, arith_zero_discards_result .or _ _ _ _,
    arith_zero_discards_result .xor _ _ _ _, arith_zero_discards_result .add _ _ _ _,
    execJal_zero_discards_result _ _ _, List.forall_mem_nil _⟩

end Sys2Proof.Machine
end

section
/-! O41: the Data Memory block on logical addresses (20_memory.md R65). One range test decides both block operations; the
session's policy then says what an access outside the block answers. -/

namespace Sys2Proof.Machine

section Block

variable {c : Config} {l : Nat}

theorem logicalInRange_iff : logicalInRange c l = true ↔ c.dmBase ≤ l ∧ l < c.dmBase + c.dmSize := by
  simp [logicalInRange]

theorem not_logicalInRange_iff : logicalInRange c l = false ↔ l < c.dmBase ∨ c.dmBase + c.dmSize ≤ l := by
  rw [← Bool.not_eq_true, logicalInRange_iff]
  omega

theorem readWord_inRange (h : logicalInRange c l = true) (m : Memory) :
    readWord c m l = some (m.read (l - c.dmBase)) := if_pos h

theorem writeWord_inRange (h : logicalInRange c l = true) (m : Memory) (v : Word) :
    writeWord c m l v = some (m.write (l - c.dmBase) v) := if_pos h

theorem readWord_outOfRange (h : logicalInRange c l = false) (m : Memory) : readWord c m l = none :=
  if_neg (Bool.eq_false_iff.1 h)

theorem writeWord_outOfRange (h : logicalInRange c l = false) (m : Memory) (v : Word) :
    writeWord c m l v = none := if_neg (Bool.eq_false_iff.1 h)

theorem hostReadWord_inRange (h : logicalInRange c l = true) (m : Memory) :
    hostReadWord c m l = .ok (m.read (l - c.dmBase)) := by
  rw [hostReadWord, readWord_inRange h]

theorem hostWriteWord_inRange (h : logicalInRange c l = true) (m : Memory) (v : Word) :
    hostWriteWord c m l v = .ok (true, m.write (l - c.dmBase) v) := by
  rw [hostWriteWord, writeWord_inRange h]

theorem hostReadWord_outOfRange (h : logicalInRange c l = false) (m : Memory) :
    hostReadWord c m l = if c.strict then .error .memoryFault else .ok 0 := by
  rw [hostReadWord, readWord_outOfRange h]

theorem hostWriteWord_outOfRange (h : logicalInRange c l = false) (m : Memory) (v : Word) :
    hostWriteWord c m l v = if c.strict then .error .memoryFault else .ok (false, m) := by
  rw [hostWriteWord, writeWord_outOfRange h]

end Block

/-- Settles O41: in range the written memory is `Memory.write`'s, out of range the policy picks the answer. -/
theorem dataMemoryBlockOnLogicalAddresses : Obligations.DataMemoryBlockOnLogicalAddresses := by
  unfold Obligations.DataMemoryBlockOnLogicalAddresses
  refine fun c m l v hm => ⟨fun low high => ?_, fun outside => ?_⟩
  · have inside := logicalInRange_iff.2 ⟨low, high⟩
    exact ⟨hostReadWord_inRange inside m, m.write (l - c.dmBase) v, hostWriteWord_inRange inside m v,
      Memory.wf_write hm _ v, fun a => Memory.read_write hm _ a v⟩
  · rw [hostReadWord_outOfRange (not_logicalInRange_iff.2 outside),
      hostWriteWord_outOfRange (not_logicalInRange_iff.2 outside)]
    exact ⟨fun graceful => by simp [graceful], fun strict => by simp [strict]⟩

end Sys2Proof.Machine
end

section
/-! O7: decode and encode agree under any opcode map (30_encoding.md R103). The row a word's opcode selects is the
mnemonic of what it decodes to; the rest is the fields, format by format. -/

namespace Sys2Proof

theorem decode_mnemonic (m : OpMap) (w : Word) : (decode m w).mnemonic = m.slot (opcodeField w) := by
  unfold decode
  cases m.slot (opcodeField w) <;> rfl

/-- The family `EncodedOpcode` for every instruction at once. -/
theorem slot_opcodeField_encode {m : OpMap} {i : Instr} (h : i.wellFormed m = true) :
    m.slot (opcodeField (encode m i)) = i.mnemonic := by
  cases i with
  | reservedD | reservedE | reservedF => exact eq_of_beq h
  | _ => exact Laws.EncodedOpcode.of_pack h _ _ _

theorem decode_encode {m : OpMap} {i : Instr} (h : i.wellFormed m = true) : decode m (encode m i) = i := by
  rw [decode, slot_opcodeField_encode h]
  cases i with
  | add | sub | and | or | xor => simp only [Instr.mnemonic, encode, regField_pack_8, regField_pack_4, regField_pack_0]
  | addi | lw | sw | beq | bne => simp only [Instr.mnemonic, encode, regField_pack_8, regField_pack_4, imm4Field_pack]
  | jal => simp only [Instr.mnemonic, encode, regField_pack_8, imm8Field_pack]
  | nop | halt | reservedD | reservedE | reservedF => rfl

theorem wellFormed_decode (m : OpMap) (w : Word) : (decode m w).wellFormed m = true := by
  have defined := m.defines_slot (opcodeField w)
  rw [decode]
  cases row : m.slot (opcodeField w) with
  | reservedD | reservedE | reservedF => exact beq_iff_eq.2 row
  | _ => rw [row] at defined; exact defined

theorem extractLsb'_imm8Field_0 (w : Word) : (imm8Field w).extractLsb' 0 4 = w.extractLsb' 0 4 := by
  simp [imm8Field]

theorem extractLsb'_imm8Field_4 (w : Word) : (imm8Field w).extractLsb' 4 4 = w.extractLsb' 4 4 := by
  simp [imm8Field]

/-- A record whose format has fields encodes to the word's own fields under the code of its row. -/
theorem encode_decode_of_fields {m : OpMap} {w : Word} (valid : (m.slot (opcodeField w)).valid = true)
    (fields : (m.slot (opcodeField w)).format ≠ .special) :
    encode m (decode m w) = packFields (m.codeOf (m.slot (opcodeField w)))
      (w.extractLsb' 8 4) (w.extractLsb' 4 4) (w.extractLsb' 0 4) := by
  rw [decode]
  cases row : m.slot (opcodeField w) with
  | add | sub | and | or | xor => simp only [encode, regBits_regField]
  | addi | lw | sw | beq | bne => simp only [encode, regBits_regField, imm4Field]
  | jal => simp only [encode, regBits_regField, extractLsb'_imm8Field_0, extractLsb'_imm8Field_4]
  | nop | halt => rw [row] at fields; exact absurd rfl fields
  | reservedD | reservedE | reservedF => rw [row] at valid; cases valid

/-- A Special record encodes with its low 12 bits zero. -/
theorem encode_decode_of_special {m : OpMap} {w : Word} (special : (m.slot (opcodeField w)).format = .special) :
    encode m (decode m w) = packFields (m.codeOf (m.slot (opcodeField w))) 0 0 0 := by
  rw [decode]
  cases row : m.slot (opcodeField w) with
  | nop | halt => rfl
  | _ => rw [row] at special; cases special

theorem lowBits_eq_zero {m : OpMap} {w : Word} (special : (m.slot (opcodeField w)).format = .special)
    (canonical : specialLowBitsSet m w = false) : w.extractLsb' 0 12 = 0 := by
  rw [opcodeField] at special
  simpa [specialLowBitsSet, special] using canonical

/-- A word with its low 12 bits zero is its opcode alone. -/
theorem packFields_opcodeField {w : Word} (low : w.extractLsb' 0 12 = 0) : packFields (opcodeField w) 0 0 0 = w := by
  have rest : w.toNat % 4096 = 0 := by simpa using congrArg BitVec.toNat low
  apply BitVec.eq_of_toNat_eq
  rw [toNat_packFields, toNat_opcodeField]
  simp only [BitVec.ofNat_eq_ofNat, BitVec.toNat_ofNat]
  omega

theorem encode_decode {m : OpMap} (hm : m.wf = true) {w : Word} (valid : (decode m w).mnemonic.valid = true)
    (canonical : specialLowBitsSet m w = false) : encode m (decode m w) = w := by
  rw [decode_mnemonic] at valid
  have code : m.codeOf (m.slot (opcodeField w)) = opcodeField w := OpMap.codeOf_slot hm valid
  by_cases special : (m.slot (opcodeField w)).format = .special
  · rw [encode_decode_of_special special, code, packFields_opcodeField (lowBits_eq_zero special canonical)]
  · rw [encode_decode_of_fields valid special, code, packFields_fields]

/-- Settles O7: `decode_encode`, `wellFormed_decode` and `encode_decode`, under every map. -/
theorem decodeAndEncodeAgree : Obligations.DecodeAndEncodeAgree := by
  unfold Obligations.DecodeAndEncodeAgree
  exact fun m => ⟨fun _ => decode_encode, wellFormed_decode m, fun hm _ => encode_decode hm⟩

end Sys2Proof
end

section
/-! O4: the low 4 bits of ADDI, LW and SW are unsigned and unscaled (30_encoding.md R93, R94). -/

namespace Sys2Proof.Machine

theorem decode_of_slot_addi {m : OpMap} {w : Word} (row : m.slot (opcodeField w) = .addi) :
    decode m w = .addi (regField w 8) (regField w 4) (imm4Field w) := by
  rw [decode, row]

theorem decode_of_slot_lw {m : OpMap} {w : Word} (row : m.slot (opcodeField w) = .lw) :
    decode m w = .lw (regField w 8) (regField w 4) (imm4Field w) := by
  rw [decode, row]

theorem decode_of_slot_sw {m : OpMap} {w : Word} (row : m.slot (opcodeField w) = .sw) :
    decode m w = .sw (regField w 8) (regField w 4) (imm4Field w) := by
  rw [decode, row]

theorem toNat_aluResult_add (a b : Word) : (aluResult .add a b).toNat = (a.toNat + b.toNat) % 65536 := by
  rw [aluResult_add, BitVec.toNat_add]

theorem arith_readReg_rd (op : AluOp) (rd : RegIdx) (a b : Word) (s : State) :
    ∃ t, arith op rd a b s = .next t ∧ (rd ≠ 0 → t.readReg rd = aluResult op a b) := by
  refine ⟨_, rfl, fun hrd => ?_⟩
  rw [State.retire_readReg, State.advance_readReg, State.readReg_writeReg_self hrd]

/-- ADDI adds the immediate's unsigned value. -/
theorem exec_addi_readReg_rd (rd rs1 : RegIdx) (imm : BitVec 4) (s : State) :
    ∃ t, exec (.addi rd rs1 imm) s = .next t ∧
      (rd ≠ 0 → (t.readReg rd).toNat = ((s.readReg rs1).toNat + imm.toNat) % 65536) := by
  obtain ⟨t, next, result⟩ := arith_readReg_rd .add rd (s.readReg rs1) (zext16 imm) s
  refine ⟨t, next, fun hrd => ?_⟩
  rw [result hrd, toNat_aluResult_add, toNat_zext16 (by decide)]

/-- Settles O4: the decoded field is `w mod 16`, and the adder of each instruction takes it as it is. -/
theorem immediateAndOffsetFieldsAreUnsigned : Obligations.ImmediateAndOffsetFieldsAreUnsigned := by
  unfold Obligations.ImmediateAndOffsetFieldsAreUnsigned
  intro m w s
  rw [← toNat_imm4Field w]
  exact ⟨fun row => ⟨_, _, _, decode_of_slot_addi row, rfl, exec_addi_readReg_rd _ _ _ s⟩,
    fun row => ⟨_, _, _, decode_of_slot_lw row, rfl, toNat_effectiveAddress s _ _⟩,
    fun row => ⟨_, _, _, decode_of_slot_sw row, rfl, toNat_effectiveAddress s _ _⟩⟩

end Sys2Proof.Machine
end

section
/-! O53: the launch is repeatable (40_core_cycle.md R157). Of the state before it a launch keeps only the configuration:
the reset drops the registers, the counters, Data Memory and the buffers, and the load replaces Instruction Memory and
its length, which the reset keeps. -/

namespace Sys2Proof.Machine

/-- A reset followed by a load's three writes is those writes on the created state. -/
theorem hostReset_loaded (s : State) (im : Memory) (n : Nat) :
    { s.hostReset with imem := im, progLen := n, loaded := true } =
      { State.create s.config with imem := im, progLen := n, loaded := true } := rfl

/-- A successful launch leaves the created state of the session's configuration with the program loaded at address 0. -/
theorem launch_ok {words : List Word} {s t : State} (h : launch words s = .ok t) :
    t = { State.create s.config with imem := Memory.writeAll [] 0 words, progLen := words.length, loaded := true } := by
  obtain ⟨_, _, _, loaded⟩ := loadProgram_ok h
  exact loaded.trans (hostReset_loaded s _ _)

/-- Settles O53: by `launch_ok` the launched state is a function of the words and the configuration alone. -/
theorem launchIsRepeatable : Obligations.LaunchIsRepeatable := by
  unfold Obligations.LaunchIsRepeatable
  intro words s₁ s₂ t₁ t₂ session h₁ h₂
  have same : t₁ = t₂ := by rw [launch_ok h₁, launch_ok h₂, session]
  exact ⟨same, fun n => congrArg (Sys2Proof.core.run n) same⟩

end Sys2Proof.Machine
end

section
/-! What each instruction does to `pc`, `halted`, the registers, the flags and Data Memory, and when it raises no error,
said once for all instructions (10_state.md R27; 40_core_cycle.md R142, R151). `ExecFrame` says the rest. -/

namespace Sys2Proof.Machine

theorem toNat_nextPc_int (pc : Word) : ((nextPc pc).toNat : Int) = ((pc.toNat : Int) + 1) % 65536 := toNat_mask16 _

theorem toNat_branchTarget_toInt {n : Nat} (pc : Word) (off : BitVec n) :
    ((branchTarget pc off).toNat : Int) = ((pc.toNat : Int) + off.toInt) % 65536 := by
  rw [toNat_branchTarget, signedValue_eq_toInt]

/-- `pc` after the instruction completes (10_state.md R27). -/
def pcAfter (i : Instr) (s : State) : Word :=
  match i with
  | .beq rs1 rs2 off => if s.readReg rs1 = s.readReg rs2 then branchTarget s.pc off else nextPc s.pc
  | .bne rs1 rs2 off => if s.readReg rs1 = s.readReg rs2 then nextPc s.pc else branchTarget s.pc off
  | .jal _ off => branchTarget s.pc off
  | .halt => s.pc
  | .add _ _ _ | .sub _ _ _ | .and _ _ _ | .or _ _ _ | .xor _ _ _ | .addi _ _ _ | .lw _ _ _ | .sw _ _ _
  | .nop | .reservedD _ | .reservedE _ | .reservedF _ => nextPc s.pc

/-- What a completed instruction makes of the elements that `ExecFrame` leaves open. -/
structure ExecEffect (i : Instr) (s t : State) : Prop where
  pc : t.pc = pcAfter i s
  halted : t.halted = (s.halted || decide (i = .halt))
  regs : ∀ j : RegIdx, fieldRd i ≠ some j → t.readReg j = s.readReg j
  flags : (generateControlSignals i).aluOp = none → t.flags = s.flags
  dmem : (generateControlSignals i).memWrite = false → t.dmem = s.dmem

/-- The effect of the shape the ALU instructions share, for any instruction with that destination and `pc + 1`. -/
theorem arith_execEffect {i : Instr} {op : AluOp} {rd : RegIdx} {a b : Word} {s t : State} (hrd : fieldRd i = some rd)
    (hpc : pcAfter i s = nextPc s.pc) (hop : (generateControlSignals i).aluOp ≠ none) (hi : i ≠ .halt)
    (h : arith op rd a b s = .next t) : ExecEffect i s t := by
  cases h
  refine ⟨hpc.symm, ?_, fun j hj => State.readReg_writeReg_other (fun e => hj (hrd.trans (congrArg some e.symm))) _,
    fun h => absurd h hop, fun _ => rfl⟩
  rw [decide_eq_false hi, Bool.or_false]
  rfl

theorem invalidWord_effect {i : Instr} {raw : Word} {s t : State} (hi : i.mnemonic.valid = false)
    (h : invalidWord raw s = .next t) : ExecEffect i s t := by
  obtain ⟨-, rfl⟩ := invalidWord_cases h
  cases i with
  | reservedD | reservedE | reservedF => exact ⟨rfl, by simp, fun _ _ => rfl, fun _ => rfl, fun _ => rfl⟩
  | _ => cases hi

theorem exec_effect {i : Instr} {s t : State} (h : exec i s = .next t) : ExecEffect i s t := by
  cases i with
  | add | sub | and | or | xor | addi => exact arith_execEffect rfl rfl nofun nofun h
  | lw rd rs1 imm =>
    rcases exec_lw_cases h with ⟨-, rfl⟩ | ⟨-, -, rfl⟩ <;>
      exact ⟨rfl, by simp, fun j hj => State.readReg_writeReg_other (fun e => hj (congrArg some e.symm)) _,
        fun _ => rfl, fun _ => rfl⟩
  | sw rs2 rs1 off =>
    rcases exec_sw_cases h with ⟨-, rfl⟩ | ⟨-, -, rfl⟩ <;>
      exact ⟨rfl, by simp, fun _ _ => rfl, fun _ => rfl, nofun⟩
  | beq rs1 rs2 off =>
    cases (exec_beq rs1 rs2 off s).symm.trans h
    exact ⟨rfl, by simp, fun _ _ => rfl, nofun, fun _ => rfl⟩
  | bne rs1 rs2 off =>
    cases (exec_bne rs1 rs2 off s).symm.trans h
    exact ⟨rfl, by simp, fun _ _ => rfl, nofun, fun _ => rfl⟩
  | jal =>
    cases h
    exact ⟨rfl, by simp, fun j hj => State.readReg_writeReg_other (fun e => hj (congrArg some e.symm)) _,
      fun _ => rfl, fun _ => rfl⟩
  | nop | halt =>
    cases h
    exact ⟨rfl, by simp, fun _ _ => rfl, fun _ => rfl, fun _ => rfl⟩
  | reservedD | reservedE | reservedF => exact invalidWord_effect rfl h

/-- The data address of LW or SW is inside Data Memory; every other instruction has none (20_memory.md R66). -/
def DataInRange (i : Instr) (s : State) : Prop :=
  (∀ rd rs1 imm, i = .lw rd rs1 imm → (effectiveAddress s rs1 imm).toNat < s.config.dmSize) ∧
  (∀ rs2 rs1 off, i = .sw rs2 rs1 off → (effectiveAddress s rs1 off).toNat < s.config.dmSize)

/-- A valid instruction with its data address in range completes under either policy and records no error. -/
theorem exec_of_inRange {i : Instr} {s : State} (valid : i.mnemonic.valid = true) (inRange : DataInRange i s) :
    ∃ t, exec i s = .next t ∧ SameErrors s t := by
  cases i with
  | lw rd rs1 imm => exact ⟨_, exec_lw_inRange (inRange.1 _ _ _ rfl), rfl, rfl⟩
  | sw rs2 rs1 off => exact ⟨_, exec_sw_inRange (inRange.2 _ _ _ rfl), rfl, rfl⟩
  | beq rs1 rs2 off => exact ⟨_, exec_beq rs1 rs2 off s, rfl, rfl⟩
  | bne rs1 rs2 off => exact ⟨_, exec_bne rs1 rs2 off s, rfl, rfl⟩
  | add | sub | and | or | xor | addi | jal | nop | halt => exact ⟨_, rfl, rfl, rfl⟩
  | reservedD | reservedE | reservedF => cases valid

theorem dataInRange_of_no_access {i : Instr} (h : accessesMemory i = false) (s : State) : DataInRange i s := by
  constructor
  all_goals
    rintro _ _ _ rfl
    cases h

theorem sameErrors_of_inRange {i : Instr} {s t : State} (h : exec i s = .next t) (valid : i.mnemonic.valid = true)
    (inRange : DataInRange i s) : SameErrors s t := by
  obtain ⟨u, hu, same⟩ := exec_of_inRange valid inRange
  cases hu.symm.trans h
  exact same

theorem sameErrors_of_no_access {i : Instr} {s t : State} (h : exec i s = .next t) (valid : i.mnemonic.valid = true)
    (noAccess : accessesMemory i = false) : SameErrors s t :=
  sameErrors_of_inRange h valid (dataInRange_of_no_access noAccess s)

namespace ExecFrame

variable {i : Instr} {s t : State}

theorem background (frame : ExecFrame i s t) : SameBackground s t :=
  ⟨frame.config, frame.imem, frame.progLen, frame.loaded, frame.history⟩

theorem retired (frame : ExecFrame i s t) (valid : i.mnemonic.valid = true) : Retired s t :=
  ⟨frame.cycles, by rw [frame.instret, if_pos valid]⟩

theorem sameInstructions (frame : ExecFrame i s t) (k : Nat) : t.imem.read k = s.imem.read k := by rw [frame.imem]

end ExecFrame

namespace ExecEffect

variable {i : Instr} {s t : State}

theorem toNat_pc (effect : ExecEffect i s t) (h : pcAfter i s = nextPc s.pc) :
    t.pc.toNat = (s.pc.toNat + 1) % 65536 := by rw [effect.pc, h, toNat_nextPc]

theorem sameRegs (effect : ExecEffect i s t) (h : fieldRd i = none) : SameRegs s t :=
  fun j => effect.regs j (by rw [h]; exact nofun)

theorem sameData (effect : ExecEffect i s t) (h : (generateControlSignals i).memWrite = false) : SameData s t :=
  fun a => by rw [effect.dmem h]

theorem halted_eq (effect : ExecEffect i s t) (h : i ≠ .halt) : t.halted = s.halted := by
  rw [effect.halted, decide_eq_false h, Bool.or_false]

end ExecEffect

end Sys2Proof.Machine
end

section
/-! O44, O45, O46: the machine's invariant (10_state.md R34, R36, R37, R46, R47; 60_exceptions.md R268). It holds at
creation, and the three ways a step changes the state keep it: an error logged, an instruction executed, a history
record appended. -/

namespace Sys2Proof.Machine

theorem State.Inv.create (c : Config) : (State.create c).Inv :=
  ⟨rfl, rfl, rfl, rfl, rfl, Nat.zero_le _, Nat.zero_le _, Nat.le_refl _, fun _ => ⟨rfl, rfl⟩, nofun⟩

theorem State.Inv.logError {s : State} (inv : s.Inv) (e : Fault) : (s.logError e).Inv := by
  obtain ⟨imWf, imIn, dmWf, dmIn, slot, hist, -, count, -, -⟩ := inv
  exact ⟨imWf, imIn, dmWf, dmIn, slot, hist, length_pushBounded_le _ _ _, count, nofun,
    fun _ room => pushBounded_ne_nil room _ _⟩

theorem State.Inv.pushHistory {s : State} (inv : s.Inv) (r : HistoryRecord) : (s.pushHistory r).Inv := by
  obtain ⟨imWf, imIn, dmWf, dmIn, slot, -, rest⟩ := inv
  exact ⟨imWf, imIn, dmWf, dmIn, slot, length_pushBounded_le _ _ _, rest⟩

theorem State.Inv.exec {i : Instr} {s t : State} (inv : s.Inv) (frame : ExecFrame i s t) : t.Inv := by
  obtain ⟨imWf, imIn, dmWf, dmIn, slot, hist, log, count, clean, dirty⟩ := inv
  obtain ⟨dmWf', dmIn'⟩ : t.dmem.wf = true ∧ t.dmem.within s.config.dmSize = true := by
    rcases frame.dmem with same | ⟨a, v, inRange, write⟩
    · rw [same]
      exact ⟨dmWf, dmIn⟩
    · rw [write]
      exact ⟨Memory.wf_write dmWf a v, Memory.within_write dmIn inRange v⟩
  have slot' : t.regs[0] = 0 := by
    rcases frame.regs with same | ⟨rd, v, write⟩
    · rw [same, slot]
    · rw [write, RegFile.write_slot_zero, slot]
  have count' : t.instret ≤ t.cycles := by
    rw [frame.instret, frame.cycles]
    split <;> omega
  rw [State.Inv, frame.config, frame.imem, frame.history]
  refine ⟨imWf, imIn, dmWf', dmIn', slot', hist, ?_⟩
  rcases frame.errors with ⟨valid, sameLog, sameSeen⟩ | ⟨seen, e, push⟩
  · rw [sameLog, sameSeen]
    refine ⟨log, count', fun noError => ⟨?_, (clean noError).2⟩, dirty⟩
    rw [frame.instret, frame.cycles, if_pos valid, (clean noError).1]
  · rw [push, seen]
    exact ⟨length_pushBounded_le _ _ _, count', nofun, fun _ room => pushBounded_ne_nil room _ _⟩

/-- Settles O44: a step that does something is an instruction executed and recorded, from the state itself or, after a
fetch out of range, from the state with the error logged. -/
theorem stepKeepsTheInvariant : Obligations.StepKeepsTheInvariant := by
  unfold Obligations.StepKeepsTheInvariant
  intro s t inv h
  cases running : s.halted with
  | true =>
    cases (step_halted running).symm.trans h
    exact inv
  | false =>
    obtain ⟨s', u, w, start, -, frame, rfl⟩ := step_next_frame h running
    have inv' : s'.Inv := by
      rcases start with rfl | rfl
      · exact inv
      · exact inv.logError _
    exact (inv'.exec frame).pushHistory _

/-- Settles O45: `State.reset` is itself a created state. -/
theorem resetHasTheInvariant : Obligations.ResetHasTheInvariant := by
  unfold Obligations.ResetHasTheInvariant
  exact ⟨State.Inv.create _, State.Inv.create⟩

/-- Settles O46: reset is a created state but for Instruction Memory, which it keeps; a load writes Instruction Memory
anew, inside its size. -/
theorem hostOperationsKeepTheInvariant : Obligations.HostOperationsKeepTheInvariant := by
  unfold Obligations.HostOperationsKeepTheInvariant
  intro s inv
  obtain ⟨imWf, imIn, rest⟩ := inv
  refine ⟨?_, fun words start t h => ?_⟩
  · obtain ⟨-, -, created⟩ := State.Inv.create s.config
    exact ⟨imWf, imIn, created⟩
  · obtain ⟨-, -, fits, rfl⟩ := loadProgram_ok h
    exact ⟨Memory.wf_writeAll rfl start words, Memory.within_writeAll rfl start words fits, rest⟩

end Sys2Proof.Machine
end

section
/-! O48: what holds along every run (10_state.md R35, the spec's decision D21). One relation between the ends of a run
of `n` steps: a run of no step has it, every step has it with `n = 1`, and it composes. -/

namespace Sys2Proof.Machine

/-- What a run of `n` steps keeps, and how far it can move the counters. -/
structure RunFrame (n : Nat) (s t : State) : Prop where
  config : t.config = s.config
  imem : t.imem = s.imem
  cycles_ge : s.cycles ≤ t.cycles
  cycles_le : t.cycles ≤ s.cycles + n
  instret_ge : s.instret ≤ t.instret
  instret_le : t.instret - s.instret ≤ t.cycles - s.cycles
  sticky : s.errorSeen = true → t.errorSeen = true

theorem RunFrame.refl (n : Nat) (s : State) : RunFrame n s s :=
  ⟨rfl, rfl, Nat.le_refl _, Nat.le_add_right _ _, Nat.le_refl _, by omega, id⟩

theorem RunFrame.trans {m n : Nat} {s t u : State} (first : RunFrame m s t) (rest : RunFrame n t u) :
    RunFrame (n + m) s u := by
  obtain ⟨config, imem, c₁, c₂, i₁, i₂, sticky⟩ := first
  obtain ⟨config', imem', c₁', c₂', i₁', i₂', sticky'⟩ := rest
  exact ⟨config'.trans config, imem'.trans imem, by omega, by omega, by omega, by omega, sticky' ∘ sticky⟩

theorem ExecFrame.runFrame {i : Instr} {s t : State} (frame : ExecFrame i s t) : RunFrame 1 s t := by
  have cycles := frame.cycles
  have instret : t.instret ≤ s.instret + 1 ∧ s.instret ≤ t.instret := by
    rw [frame.instret]
    split <;> omega
  refine ⟨frame.config, frame.imem, by omega, by omega, by omega, by omega, fun seen => ?_⟩
  rcases frame.errors with ⟨-, -, same⟩ | ⟨raised, -⟩
  · rw [same, seen]
  · exact raised

theorem step_runFrame {s t : State} (h : step s = .next t) : RunFrame 1 s t := by
  cases running : s.halted with
  | true =>
    cases (step_halted running).symm.trans h
    exact RunFrame.refl 1 s
  | false =>
    obtain ⟨s', u, w, start, -, frame, rfl⟩ := step_next_frame h running
    obtain ⟨config, imem, c₁, c₂, i₁, i₂, sticky⟩ := frame.runFrame
    rcases start with rfl | rfl
    · exact ⟨config, imem, c₁, c₂, i₁, i₂, sticky⟩
    · exact ⟨config, imem, c₁, c₂, i₁, i₂, fun _ => sticky rfl⟩

/-- A run of `n + 1` steps that completes is a step that completes and a run of `n` steps from there. -/
theorem core_run_succ_next {n : Nat} {s t : State} (h : Sys2Proof.core.run (n + 1) s = .next t) :
    ∃ u, step s = .next u ∧ Sys2Proof.core.run n u = .next t := by
  cases hs : step s with
  | next u => exact ⟨u, rfl, (core_run_next hs).symm.trans h⟩
  | fault e => cases (core_run_fault hs).symm.trans h
  | refused e => cases (core_run_refused hs).symm.trans h

theorem core_run_runFrame {n : Nat} {s t : State} (h : Sys2Proof.core.run n s = .next t) : RunFrame n s t := by
  induction n generalizing s with
  | zero =>
    cases h
    exact RunFrame.refl 0 _
  | succ n ih =>
    obtain ⟨u, first, rest⟩ := core_run_succ_next h
    exact (step_runFrame first).trans (ih rest)

/-- Settles O48: the clauses are the fields of `RunFrame`. -/
theorem runsKeepConfigurationAndCountUp : Obligations.RunsKeepConfigurationAndCountUp := by
  unfold Obligations.RunsKeepConfigurationAndCountUp
  intro n s t h
  obtain ⟨config, imem, cyclesGe, cyclesLe, instretGe, instretLe, sticky⟩ := core_run_runFrame h
  exact ⟨config, imem, cyclesGe, cyclesLe, instretGe, instretLe, sticky⟩

end Sys2Proof.Machine
end

section
/-! O38, O42, O47: what an execution does not depend on. One argument serves all three: a relation between states that
sees the same registers, `pc`, `halted`, Data Memory and parameters, and that every operation keeps, is kept by every
instruction and by every step. The relation is "the same but for Instruction Memory and `prog_len`" in O38 (10_state.md
R36), "the same but for `DM_BASE`" in O42 (20_memory.md R66), and `SameArch` in O47. -/

namespace Sys2Proof.Machine

/-- Two results of the same kind, with related states or the same fault. -/
def Result.Related (R : State → State → Prop) : Result → Result → Prop
  | .next s, .next t => R s t
  | .fault e, .fault f => e = f
  | .refused e, .refused f => e = f
  | _, _ => False

theorem Result.mapNext_of_related {f : State → State} :
    ∀ {x y : Result}, Result.Related (fun s t => t = f s) x y → y = Result.mapNext f x
  | .next _, .next _, h => congrArg Host.Outcome.next h
  | .fault _, .fault _, h => congrArg Host.Outcome.fault (Eq.symm h)
  | .refused _, .refused _, h => congrArg Host.Outcome.refused (Eq.symm h)

theorem Result.Related.mapNext {R : State → State → Prop} {f g : State → State} (go : ∀ {s t}, R s t → R (f s) (g t)) :
    ∀ {x y : Result}, Result.Related R x y → Result.Related R (x.mapNext f) (y.mapNext g)
  | .next _, .next _, h => go h
  | .fault _, .fault _, h => h
  | .refused _, .refused _, h => h

/-- Related states show an execution the same, and every operation of the instructions keeps them related. -/
structure Congruence (R : State → State → Prop) : Prop where
  regs : ∀ {s t}, R s t → t.regs = s.regs
  pc : ∀ {s t}, R s t → t.pc = s.pc
  halted : ∀ {s t}, R s t → t.halted = s.halted
  dmem : ∀ {s t}, R s t → t.dmem = s.dmem
  strict : ∀ {s t}, R s t → t.config.strict = s.config.strict
  imSize : ∀ {s t}, R s t → t.config.imSize = s.config.imSize
  dmSize : ∀ {s t}, R s t → t.config.dmSize = s.config.dmSize
  opMap : ∀ {s t}, R s t → t.config.opMap = s.config.opMap
  writeReg : ∀ {s t}, R s t → ∀ i v, R (s.writeReg i v) (t.writeReg i v)
  setPc : ∀ {s t}, R s t → ∀ w, R (s.setPc w) (t.setPc w)
  setFlags : ∀ {s t}, R s t → ∀ f, R (s.setFlags f) (t.setFlags f)
  setHalted : ∀ {s t}, R s t → R s.setHalted t.setHalted
  setDmem : ∀ {s t}, R s t → ∀ m, R (s.setDmem m) (t.setDmem m)
  countCycle : ∀ {s t}, R s t → R s.countCycle t.countCycle
  countInstr : ∀ {s t}, R s t → R s.countInstr t.countInstr
  logError : ∀ {s t}, R s t → ∀ e, R (s.logError e) (t.logError e)
  pushHistory : ∀ {s t}, R s t → ∀ r, R (s.pushHistory r) (t.pushHistory r)

namespace Congruence

variable {R : State → State → Prop} (hR : Congruence R) {s t : State}

include hR

theorem readReg (h : R s t) (j : RegIdx) : t.readReg j = s.readReg j := by
  rw [State.readReg, hR.regs h, State.readReg]

theorem effectiveAddress (h : R s t) (rs1 : RegIdx) (off : BitVec 4) :
    effectiveAddress t rs1 off = Machine.effectiveAddress s rs1 off := by
  rw [Machine.effectiveAddress, hR.readReg h, Machine.effectiveAddress]

theorem advance (h : R s t) : R s.advance t.advance := by
  rw [State.advance, State.advance, hR.pc h]
  exact hR.setPc h _

theorem retire (h : R s t) : R s.retire t.retire := hR.countInstr (hR.countCycle h)

theorem arith (h : R s t) (op : AluOp) (rd : RegIdx) (a b : Word) :
    Result.Related R (arith op rd a b s) (Machine.arith op rd a b t) :=
  hR.retire (hR.advance (hR.writeReg (hR.setFlags h _) rd _))

theorem raise (h : R s t) (e : Fault) {j k : State → Result}
    (go : ∀ {u v}, R u v → Result.Related R (j u) (k v)) :
    Result.Related R (raise e s j) (Machine.raise e t k) := by
  rcases Bool.eq_false_or_eq_true s.config.strict with strict | graceful
  · rw [raise_strict strict, raise_strict ((hR.strict h).trans strict)]
    exact rfl
  · rw [raise_graceful graceful, raise_graceful ((hR.strict h).trans graceful)]
    exact go (hR.logError h e)

theorem loadWord (h : R s t) (i : Instr) (ea : Word) {k : Word → State → Result}
    (go : ∀ v {u w}, R u w → Result.Related R (k v u) (k v w)) :
    Result.Related R (loadWord i ea s k) (Machine.loadWord i ea t k) := by
  rcases Nat.lt_or_ge ea.toNat s.config.dmSize with inside | outside
  · rw [loadWord_inRange inside, loadWord_inRange (inside.trans_eq (hR.dmSize h).symm), hR.dmem h]
    exact go _ h
  · rw [loadWord_outOfRange outside, loadWord_outOfRange ((hR.dmSize h).trans_le outside), hR.pc h]
    exact hR.raise h _ (go 0)

theorem storeWord (h : R s t) (i : Instr) (ea v : Word) {k : State → Result}
    (go : ∀ {u w}, R u w → Result.Related R (k u) (k w)) :
    Result.Related R (storeWord i ea v s k) (Machine.storeWord i ea v t k) := by
  rcases Nat.lt_or_ge ea.toNat s.config.dmSize with inside | outside
  · rw [storeWord_inRange inside, storeWord_inRange (inside.trans_eq (hR.dmSize h).symm), hR.dmem h]
    exact go (hR.setDmem h _)
  · rw [storeWord_outOfRange outside, storeWord_outOfRange ((hR.dmSize h).trans_le outside), hR.pc h]
    exact hR.raise h _ go

theorem branch (h : R s t) (op : AluOp) (rs1 rs2 : RegIdx) (off : BitVec 4) :
    Result.Related R (branch op rs1 rs2 off s) (Machine.branch op rs1 rs2 off t) := by
  rw [branch_eq, branch_eq, hR.readReg h, hR.readReg h, hR.pc h]
  exact hR.retire (hR.setPc (hR.setFlags h _) _)

theorem invalidWord (h : R s t) (raw : Word) :
    Result.Related R (invalidWord raw s) (Machine.invalidWord raw t) := by
  rw [Machine.invalidWord, Machine.invalidWord, hR.pc h]
  exact hR.raise h _ fun go => hR.countCycle (hR.advance go)

theorem exec (h : R s t) (i : Instr) : Result.Related R (exec i s) (Machine.exec i t) := by
  cases i with
  | add rd rs1 rs2 | sub rd rs1 rs2 | and rd rs1 rs2 | or rd rs1 rs2 | xor rd rs1 rs2 =>
    have := hR.arith h
    simp only [Machine.exec, execAdd, execSub, execAnd, execOr, execXor, hR.readReg h, this]
  | addi rd rs1 imm =>
    have := hR.arith h
    simp only [Machine.exec, execAddi, hR.readReg h, this]
  | lw rd rs1 imm =>
    simp only [Machine.exec, execLw, hR.effectiveAddress h]
    exact hR.loadWord h _ _ fun v _ _ go => hR.retire (hR.advance (hR.writeReg go rd v))
  | sw rs2 rs1 off =>
    simp only [Machine.exec, execSw, hR.effectiveAddress h, hR.readReg h]
    exact hR.storeWord h _ _ _ fun go => hR.retire (hR.advance go)
  | beq => exact hR.branch h _ _ _ _
  | bne => exact hR.branch h _ _ _ _
  | jal rd off =>
    simp only [Machine.exec, execJal, hR.pc h]
    exact hR.retire (hR.setPc (hR.writeReg h rd _) _)
  | nop => exact hR.retire (hR.advance h)
  | halt => exact hR.retire (hR.setHalted h)
  | reservedD | reservedE | reservedF => exact hR.invalidWord h _

theorem runWord (h : R s t) (w : Word) : Result.Related R (runWord w s) (Machine.runWord w t) := by
  rw [runWord_eq, runWord_eq, hR.opMap h, hR.pc h]
  exact (hR.exec h _).mapNext fun go => hR.pushHistory go _

/-- Related states that fetch the same word make related steps. -/
theorem step (h : R s t) (fetched : t.imem.read t.pc.toNat = s.imem.read s.pc.toNat) :
    Result.Related R (step s) (Machine.step t) := by
  cases running : s.halted with
  | true =>
    rw [step_halted running, step_halted ((hR.halted h).trans running)]
    exact h
  | false =>
    have running' := (hR.halted h).trans running
    have bound : t.pc.toNat = s.pc.toNat := by rw [hR.pc h]
    rcases Nat.lt_or_ge s.pc.toNat s.config.imSize with inside | outside
    · rw [step_inRange running inside, step_inRange running' (by rw [bound, hR.imSize h]; exact inside), fetched]
      exact hR.runWord h _
    · rw [step_outOfRange running outside, step_outOfRange running' (by rw [bound, hR.imSize h]; exact outside),
        hR.pc h]
      exact hR.raise h _ fun go => hR.runWord go 0

end Congruence

/-! ### O47: the flags, the counters, `prog_len` and the diagnostics -/

theorem sameArch_congruence : Congruence SameArch where
  regs := fun ⟨_, regs, _⟩ => regs
  pc := fun ⟨_, _, pc, _⟩ => pc
  halted := fun ⟨_, _, _, halted, _⟩ => halted
  dmem := fun ⟨_, _, _, _, _, dmem⟩ => dmem
  strict := fun ⟨config, _⟩ => by rw [config]
  imSize := fun ⟨config, _⟩ => by rw [config]
  dmSize := fun ⟨config, _⟩ => by rw [config]
  opMap := fun ⟨config, _⟩ => by rw [config]
  writeReg := fun ⟨config, regs, rest⟩ i v => ⟨config, congrArg (fun r => (RegFile.write r i v).2) regs, rest⟩
  setPc := fun ⟨config, regs, _, rest⟩ _ => ⟨config, regs, rfl, rest⟩
  setFlags := fun h _ => h
  setHalted := fun ⟨config, regs, pc, _, rest⟩ => ⟨config, regs, pc, rfl, rest⟩
  setDmem := fun ⟨config, regs, pc, halted, imem, _⟩ _ => ⟨config, regs, pc, halted, imem, rfl⟩
  countCycle := id
  countInstr := id
  logError := fun h _ => h
  pushHistory := fun h _ => h

theorem SameArch.step {s t : State} (h : SameArch s t) : Result.Related SameArch (step s) (step t) := by
  have fetched : t.imem.read t.pc.toNat = s.imem.read s.pc.toNat := by
    obtain ⟨-, -, pc, -, imem, -⟩ := h
    rw [imem, pc]
  exact sameArch_congruence.step h fetched

/-- Settles O47: by induction on the number of steps, with `SameArch.step` for each. -/
theorem runsCannotObserveFlagsCountersOrDiagnostics : Obligations.RunsCannotObserveFlagsCountersOrDiagnostics := by
  unfold Obligations.RunsCannotObserveFlagsCountersOrDiagnostics
  intro n
  induction n with
  | zero => exact fun _ _ same => same
  | succ n ih =>
    intro s t same
    have related := same.step
    cases hs : step s <;> cases ht : step t <;> rw [hs, ht] at related
    case next.next u v =>
      rw [core_run_next hs, core_run_next ht]
      exact ih u v related
    case fault.fault =>
      rw [core_run_fault hs, core_run_fault ht]
      exact related
    case refused.refused =>
      rw [core_run_refused hs, core_run_refused ht]
      exact related
    all_goals cases related

/-! ### O38: Instruction Memory and `prog_len` -/

/-- The same Instruction Memory and `prog_len` put in. -/
def State.withImem (im : Memory) (n : Nat) (s : State) : State := { s with imem := im, progLen := n }

theorem withImem_congruence (im : Memory) (n : Nat) : Congruence (fun s t => t = s.withImem im n) := by
  constructor
  all_goals
    rintro s _ rfl
    intros
    rfl

/-- Settles O38: what a step keeps is its frame, and that it sees Instruction Memory at `pc` only is
`Congruence.step`. -/
theorem instructionMemoryIsReadOnlyInExecution : Obligations.InstructionMemoryIsReadOnlyInExecution := by
  unfold Obligations.InstructionMemoryIsReadOnlyInExecution
  refine ⟨fun s t h => ?_, fun _ => ⟨rfl, rfl⟩, fun i s im n => ?_, fun s im n fetched _ => ?_⟩
  · cases running : s.halted with
    | true =>
      cases (step_halted running).symm.trans h
      exact ⟨rfl, rfl⟩
    | false =>
      obtain ⟨s', u, w, start, -, frame, rfl⟩ := step_next_frame h running
      rcases start with rfl | rfl <;> exact ⟨frame.imem, frame.progLen⟩
  · exact Result.mapNext_of_related ((withImem_congruence im n).exec rfl i)
  · exact Result.mapNext_of_related ((withImem_congruence im n).step rfl fetched)

/-! ### O42: the base address of Data Memory -/

/-- Another `DM_BASE` put in. -/
def State.withBase (base : Nat) (s : State) : State := { s with config := { s.config with dmBase := base } }

theorem withBase_congruence (base : Nat) : Congruence (fun s t => t = s.withBase base) := by
  constructor
  all_goals
    rintro s _ rfl
    intros
    rfl

/-- Settles O42: the core's translation cancels the base, so no operation sees it. -/
theorem dataBaseIsInvisibleToPrograms : Obligations.DataBaseIsInvisibleToPrograms := by
  unfold Obligations.DataBaseIsInvisibleToPrograms
  exact fun s base => Result.mapNext_of_related ((withBase_congruence base).step rfl rfl)

end Sys2Proof.Machine
end

section
/-! O6, O8, O9, O10, O58: the decoder under any opcode map, and the opcode rows of the standard map (30_encoding.md R92,
R98 to R100, R102; 93_implementation_defined.md U1, U2). -/

namespace Sys2Proof

theorem opcodeField_eq_ofNat (w : Word) : opcodeField w = BitVec.ofNat 4 (w.toNat / 4096) := by
  rw [← toNat_opcodeField, BitVec.ofNat_toNat, BitVec.setWidth_eq]

theorem imm4Field_eq_ofNat (w : Word) : imm4Field w = BitVec.ofNat 4 w.toNat := by
  apply BitVec.eq_of_toNat_eq
  rw [toNat_imm4Field, BitVec.toNat_ofNat]

theorem imm8Field_eq_ofNat (w : Word) : imm8Field w = BitVec.ofNat 8 w.toNat := by
  apply BitVec.eq_of_toNat_eq
  rw [toNat_imm8Field, BitVec.toNat_ofNat]

theorem regField_8_eq (w : Word) : regField w 8 = ⟨w.toNat / 256 % 16, Nat.mod_lt _ (by decide)⟩ :=
  Fin.ext (val_regField w 8)

theorem regField_4_eq (w : Word) : regField w 4 = ⟨w.toNat / 16 % 16, Nat.mod_lt _ (by decide)⟩ :=
  Fin.ext (val_regField w 4)

theorem regField_0_eq (w : Word) : regField w 0 = ⟨w.toNat % 16, Nat.mod_lt _ (by decide)⟩ :=
  Fin.ext (by rw [val_regField, pow_zero, Nat.div_one])

theorem toNat_packFields_zero_mod (op : BitVec 4) : (packFields op 0 0 0).toNat % 4096 = 0 := by
  rw [toNat_packFields]
  simp

/-- Settles O6: Table A's bit positions are the decoder's fields, and `decode` gives them to the row's constructor. -/
theorem formatsPlaceFieldsAsTableA : Obligations.FormatsPlaceFieldsAsTableA := by
  unfold Obligations.FormatsPlaceFieldsAsTableA
  intro m w
  rw [← opcodeField_eq_ofNat, ← imm4Field_eq_ofNat, ← imm8Field_eq_ofNat, ← regField_8_eq, ← regField_4_eq,
    ← regField_0_eq]
  refine ⟨?_, ?_, ?_, ?_, ?_, ?_, ?_, ?_, ?_, ?_, ?_, ?_, ?_, toNat_packFields_zero_mod _, toNat_packFields_zero_mod _⟩
  all_goals
    intro row
    rw [decode, row]

/-- Settles O8: each word is decoded by evaluation. -/
theorem specWordsDecode : Obligations.SpecWordsDecode := by
  unfold Obligations.SpecWordsDecode
  decide

theorem valid_iff_not_reserved (k : Mnemonic) : k.valid = true ↔ k ∉ [.reservedD, .reservedE, .reservedF] := by
  cases k <;> decide

/-- Settles O58: the valid mark is that of the row the opcode selects, and the raw word tells the records apart. -/
theorem decodedRecordCarriesTheRawWord : Obligations.DecodedRecordCarriesTheRawWord := by
  unfold Obligations.DecodedRecordCarriesTheRawWord
  refine fun m w => ⟨rfl, rfl, ?_, fun v same => congrArg Decoded.raw same⟩
  rw [← valid_iff_not_reserved, ← decode_mnemonic]
  rfl

theorem slot_standard_valid_iff (op : BitVec 4) : (OpMap.standard.slot op).valid = true ↔ op.toNat < 13 := by
  revert op
  decide

theorem slot_standard_special_iff (op : BitVec 4) :
    (OpMap.standard.slot op).format = .special ↔ op.toNat = 11 ∨ op.toNat = 12 := by
  revert op
  decide

theorem slot_standard_of_toNat {w : Word} {op : BitVec 4} (h : w.toNat / 4096 = op.toNat) :
    OpMap.standard.slot (opcodeField w) = OpMap.standard.slot op := by
  rw [BitVec.eq_of_toNat_eq ((toNat_opcodeField w).trans h)]

/-- Settles O9: the opcode is `w / 4096`, and the rows 13, 14 and 15 are the reserved ones. -/
theorem reservedWordsAreThoseFromD000 : Obligations.ReservedWordsAreThoseFromD000 := by
  unfold Obligations.ReservedWordsAreThoseFromD000
  refine fun w => ⟨?_, fun low high => ?_, fun low high => ?_, fun low => ?_⟩
  · rw [← Bool.not_eq_true, decode_mnemonic, slot_standard_valid_iff, toNat_opcodeField]
    omega
  · rw [decode, slot_standard_of_toNat (op := 13) (show w.toNat / 4096 = 13 by omega)]
    rfl
  · rw [decode, slot_standard_of_toNat (op := 14) (show w.toNat / 4096 = 14 by omega)]
    rfl
  · have top := w.isLt
    rw [decode, slot_standard_of_toNat (op := 15) (show w.toNat / 4096 = 15 by omega)]
    rfl

theorem lowBits_eq_zero_iff (w : Word) : w.extractLsb' 0 12 = 0 ↔ w.toNat % 4096 = 0 := by
  rw [← BitVec.toNat_inj]
  simp

/-- A word passes the check iff its row is an instruction and, where that is NOP or HALT, its low bits are 0. -/
theorem wordWellFormed_iff (m : OpMap) (w : Word) :
    wordWellFormed m w = true ↔
      (m.slot (opcodeField w)).valid = true ∧
        ((m.slot (opcodeField w)).format = .special → w.toNat % 4096 = 0) := by
  rw [← lowBits_eq_zero_iff]
  simp [wordWellFormed, specialLowBitsSet, opcodeField, imp_iff_not_or]

/-- Settles O10: the check in terms of `w / 4096` and `w mod 4096`. -/
theorem programCheckRefusesReservedEncodings : Obligations.ProgramCheckRefusesReservedEncodings := by
  unfold Obligations.ProgramCheckRefusesReservedEncodings
  intro w
  rw [wordWellFormed_iff, slot_standard_valid_iff, slot_standard_special_iff, toNat_opcodeField]
  omega

end Sys2Proof
end

section
/-! O11, O12: the ALU (41_alu.md R170 to R173). -/

namespace Sys2Proof.Machine

theorem aluResult_add_ofNat (a b : Word) : aluResult .add a b = BitVec.ofNat 16 (a.toNat + b.toNat) :=
  mask16_natCast (a.toNat + b.toNat)

theorem toNat_aluResult_eq (a b : Word) : (aluResult .eq a b).toNat = if a = b then 1 else 0 := by
  rw [aluResult]
  split <;> rfl

theorem toNat_aluResult_ne (a b : Word) : (aluResult .ne a b).toNat = if a = b then 0 else 1 := by
  rw [aluResult]
  split <;> rfl

theorem aluFlags_z_iff (op : AluOp) (a b : Word) : (aluFlags op a b).z = true ↔ aluResult op a b = 0 := by
  rw [aluFlags, decide_eq_true_eq]

theorem aluFlags_n_iff (op : AluOp) (a b : Word) :
    (aluFlags op a b).n = true ↔ 32768 ≤ (aluResult op a b).toNat := by
  rw [aluFlags, ← BitVec.msb_eq_getLsbD_last, BitVec.msb_eq_decide, decide_eq_true_eq]

theorem aluOverflow_of_ne_add {op : AluOp} (h : op ≠ .add) (a b : Word) : aluOverflow op a b = false := by
  cases op with
  | add => exact absurd rfl h
  | _ => rfl

/-- Settles O11: the results are those of the word operations, the flags the three lemmas above. -/
theorem aluResultsAndFlags : Obligations.AluResultsAndFlags := by
  unfold Obligations.AluResultsAndFlags
  intro a b
  have difference : ((aluResult .sub a b).toNat : Int) = ((a.toNat : Int) - b.toNat) % 65536 := toNat_mask16 _
  refine ⟨toNat_aluResult_add a b, difference, fun less => ?_, fun _ _ => BitVec.getLsbD_and,
    fun _ _ => BitVec.getLsbD_or, fun _ _ => BitVec.getLsbD_xor, toNat_aluResult_eq a b, toNat_aluResult_ne a b,
    decide_eq_true_iff, fun op => ?_⟩
  · have := b.isLt
    omega
  · refine ⟨?_, aluFlags_n_iff op a b, fun off => aluOverflow_of_ne_add off a b⟩
    rw [aluFlags_z_iff, ← BitVec.toNat_inj]
    rfl

/-- Settles O12: `aluExecute_codeOf` under a well-formed map; the standard map is evaluated. -/
theorem aluCodesSelectOperations : Obligations.AluCodesSelectOperations := by
  unfold Obligations.AluCodesSelectOperations
  refine ⟨fun m a b => ⟨fun wf => aluExecute_codeOf wf a b, fun c unassigned => ?_⟩, by decide, by decide, by decide⟩
  rw [aluExecute, unassigned, Option.map_none]

end Sys2Proof.Machine
end

section
/-! O13 to O16, O26: the ALU instructions (41_alu.md R175 to R180; 44_special_invalid.md R246). One effect for the shape
they share; each then has its operation's result and overflow. -/

namespace Sys2Proof.Machine

theorem arith_effect (op : AluOp) (rd : RegIdx) (a b : Word) (s : State) :
    ∃ t, arith op rd a b s = .next t ∧ AluEffect rd (aluResult op a b) (aluOverflow op a b) s t :=
  ⟨_, rfl, fun j => State.readReg_writeReg (s.setFlags _) rd j _, aluFlags_z_iff op a b, rfl, rfl, toNat_nextPc s.pc,
    ⟨rfl, rfl⟩, rfl, fun _ => rfl, ⟨rfl, rfl⟩, rfl, rfl, rfl, rfl, rfl⟩

/-- The overflow of ADD is the carry out of the sum. -/
theorem arith_add_effect (rd : RegIdx) (a b : Word) (s : State) :
    ∃ t, arith .add rd a b s = .next t ∧
      AluEffect rd (BitVec.ofNat 16 (a.toNat + b.toNat)) (decide (65535 < a.toNat + b.toNat)) s t :=
  aluResult_add_ofNat a b ▸ arith_effect .add rd a b s

/-- Settles O13: ADD is the shared shape with the sum and its carry. -/
theorem addWritesSumAndCarry : Obligations.AddWritesSumAndCarry := by
  unfold Obligations.AddWritesSumAndCarry
  exact fun s rd rs1 rs2 => arith_add_effect rd _ _ s

/-- Settles O14: SUB is the shared shape; its result is the integer difference masked. -/
theorem subWritesWrappedDifference : Obligations.SubWritesWrappedDifference := by
  unfold Obligations.SubWritesWrappedDifference
  exact fun s rd rs1 rs2 => arith_effect .sub rd _ _ s

/-- Settles O15: the three are the shared shape; their results are the library's word operations. -/
theorem logicalInstructionsWorkBitwise : Obligations.LogicalInstructionsWorkBitwise := by
  unfold Obligations.LogicalInstructionsWorkBitwise
  intro s rd rs1 rs2
  obtain ⟨t, andNext, andEffect⟩ := arith_effect .and rd (s.readReg rs1) (s.readReg rs2) s
  obtain ⟨u, orNext, orEffect⟩ := arith_effect .or rd (s.readReg rs1) (s.readReg rs2) s
  obtain ⟨v, xorNext, xorEffect⟩ := arith_effect .xor rd (s.readReg rs1) (s.readReg rs2) s
  exact ⟨⟨t, _, andNext, fun _ _ => BitVec.getLsbD_and, andEffect⟩,
    ⟨u, _, orNext, fun _ _ => BitVec.getLsbD_or, orEffect⟩, ⟨v, _, xorNext, fun _ _ => BitVec.getLsbD_xor, xorEffect⟩⟩

/-- Settles O16: ADDI is ADD's shape on the zero-extended immediate. -/
theorem addiAddsUnsignedImmediate : Obligations.AddiAddsUnsignedImmediate := by
  unfold Obligations.AddiAddsUnsignedImmediate
  intro s rd rs1 imm
  have effect := arith_add_effect rd (s.readReg rs1) (zext16 imm) s
  rw [toNat_zext16 (by decide)] at effect
  exact effect

/-- ADD x0, x0, x0: the sum 0 of two zeros goes nowhere. -/
theorem exec_add_zero (s : State) :
    exec (.add 0 0 0) s = .next (s.setFlags { z := true, n := false, v := false }).advance.retire := by
  have flags : aluFlags .add 0 0 = { z := true, n := false, v := false } := by decide
  have meaning : exec (.add 0 0 0) s = arith .add 0 0 0 s := rfl
  rw [meaning, arith, flags, State.writeReg_zero]

/-- Settles O26: the word 0 is ADD x0, x0, x0. -/
theorem zeroWordIsNopButForTheFlags : Obligations.ZeroWordIsNopButForTheFlags := by
  unfold Obligations.ZeroWordIsNopButForTheFlags
  refine ⟨by decide, fun s => ?_⟩
  have next := exec_add_zero s
  have frame := exec_frame next
  have effect := exec_effect next
  exact ⟨_, next, fun _ => rfl, effect.sameData rfl, frame.background, effect.toNat_pc rfl, frame.retired rfl,
    State.setFlags_flags s _, effect.halted_eq nofun, sameErrors_of_no_access next rfl rfl⟩

end Sys2Proof.Machine
end

section
/-! O17 to O20, O43: LW and SW on each side of the range check (42_load_store.md R201, R202; 20_memory.md R67, R68,
R75). The equation of `exec` for the case gives the next state and with it the register or the data word; the rest is
the frame. -/

namespace Sys2Proof.Machine

/-- Settles O17: `exec_lw_inRange`, with the address as the sum modulo 2^16. -/
theorem loadReadsTheWordAtItsAddress : Obligations.LoadReadsTheWordAtItsAddress := by
  unfold Obligations.LoadReadsTheWordAtItsAddress
  intro s rd rs1 imm inRange
  rw [← toNat_effectiveAddress] at inRange ⊢
  have next := exec_lw_inRange (rd := rd) inRange
  have frame := exec_frame next
  have effect := exec_effect next
  exact ⟨_, next, fun j => State.readReg_writeReg s rd j _, effect.flags rfl, effect.toNat_pc rfl, frame.retired rfl,
    effect.halted_eq nofun, effect.sameData rfl, ⟨rfl, rfl⟩, frame.background⟩

/-- Settles O18: `exec_lw_graceful` and `exec_lw_strict`. -/
theorem loadOutOfRangeDegradesOrFaults : Obligations.LoadOutOfRangeDegradesOrFaults := by
  unfold Obligations.LoadOutOfRangeDegradesOrFaults
  intro s rd rs1 imm ea e outOfRange
  refine ⟨fun graceful => ?_, exec_lw_strict outOfRange⟩
  have next := exec_lw_graceful (rd := rd) outOfRange graceful
  have frame := exec_frame next
  have effect := exec_effect next
  exact ⟨_, next, fun j => State.readReg_writeReg (s.logError e) rd j 0, effect.flags rfl, effect.toNat_pc rfl,
    frame.retired rfl, effect.halted_eq nofun, effect.sameData rfl, ⟨rfl, rfl⟩, frame.background⟩

/-- Settles O19: `exec_sw_inRange`, with the written memory read by `Memory.read_write`. -/
theorem storeWritesOneWord : Obligations.StoreWritesOneWord := by
  unfold Obligations.StoreWritesOneWord
  intro s rs2 rs1 off wf inRange
  rw [← toNat_effectiveAddress] at inRange ⊢
  have next := exec_sw_inRange (rs2 := rs2) inRange
  have frame := exec_frame next
  have effect := exec_effect next
  exact ⟨_, next, fun a => Memory.read_write wf _ a _, effect.sameRegs rfl, effect.flags rfl, effect.toNat_pc rfl,
    frame.retired rfl, effect.halted_eq nofun, ⟨rfl, rfl⟩, frame.background⟩

/-- Settles O20: `exec_sw_graceful` and `exec_sw_strict`. -/
theorem storeOutOfRangeIsDroppedOrFaults : Obligations.StoreOutOfRangeIsDroppedOrFaults := by
  unfold Obligations.StoreOutOfRangeIsDroppedOrFaults
  intro s rs2 rs1 off ea e outOfRange
  refine ⟨fun graceful => ?_, exec_sw_strict outOfRange⟩
  have next := exec_sw_graceful (rs2 := rs2) outOfRange graceful
  have frame := exec_frame next
  have effect := exec_effect next
  exact ⟨_, next, effect.sameRegs rfl, effect.flags rfl, effect.toNat_pc rfl, frame.retired rfl, effect.halted_eq nofun,
    fun _ => rfl, ⟨rfl, rfl⟩, frame.background⟩

/-- Settles O43: the load reads the memory that the store wrote. -/
theorem loadSeesTheMostRecentStore : Obligations.LoadSeesTheMostRecentStore := by
  unfold Obligations.LoadSeesTheMostRecentStore
  intro s t rs2 rs1 rd rb off imm wf hrd inRange store inRange'
  have written : t.dmem = s.dmem.write (effectiveAddress s rs1 off).toNat (s.readReg rs2) := by
    cases (exec_sw_inRange inRange).symm.trans store
    rfl
  refine ⟨_, exec_lw_inRange (by rwa [(exec_frame store).config]), ?_⟩
  rw [State.retire_readReg, State.advance_readReg, State.readReg_writeReg_self hrd, written, Memory.read_write wf]
  simp only [BitVec.toNat_inj]

end Sys2Proof.Machine
end

section
/-! O5, O21 to O25, O56: branches, jumps, NOP, HALT and the reserved opcodes (43_branch_jump.md R221 to R224;
44_special_invalid.md R241 to R244; 30_encoding.md R95, R96, R114). -/

namespace Sys2Proof.Machine

/-- Settles O21: the flags are those of `exec_beq`, `pc` is `pcAfter`, the rest is the frame. -/
theorem beqBranchesOnEqual : Obligations.BeqBranchesOnEqual := by
  unfold Obligations.BeqBranchesOnEqual
  intro s rs1 rs2 off
  have next := exec_beq rs1 rs2 off s
  have frame := exec_frame next
  have effect := exec_effect next
  refine ⟨_, next, ?_, State.setFlags_flags s _, effect.sameRegs rfl, frame.retired rfl, effect.halted_eq nofun,
    effect.sameData rfl, sameErrors_of_no_access next rfl rfl, frame.background⟩
  rw [effect.pc, pcAfter]
  split
  · exact toNat_branchTarget_toInt s.pc off
  · exact toNat_nextPc_int s.pc

/-- Settles O22: the flags are those of `exec_bne`, `pc` is `pcAfter`, the rest is the frame. -/
theorem bneBranchesOnDifferent : Obligations.BneBranchesOnDifferent := by
  unfold Obligations.BneBranchesOnDifferent
  intro s rs1 rs2 off
  have next := exec_bne rs1 rs2 off s
  have frame := exec_frame next
  have effect := exec_effect next
  refine ⟨_, next, ?_, State.setFlags_flags s _, effect.sameRegs rfl, frame.retired rfl, effect.halted_eq nofun,
    effect.sameData rfl, sameErrors_of_no_access next rfl rfl, frame.background⟩
  rw [effect.pc, pcAfter, ite_not]
  split
  · exact toNat_nextPc_int s.pc
  · exact toNat_branchTarget_toInt s.pc off

/-- Settles O23: the link is `nextPc`, the target `branchTarget`, both of the old `pc`. -/
theorem jalLinksAndJumps : Obligations.JalLinksAndJumps := by
  unfold Obligations.JalLinksAndJumps
  intro s rd off
  have link : nextPc s.pc = BitVec.ofNat 16 (s.pc.toNat + 1) := mask16_natCast (s.pc.toNat + 1)
  have next : exec (.jal rd off) s = .next ((s.writeReg rd (nextPc s.pc)).setPc (branchTarget s.pc off)).retire := rfl
  have frame := exec_frame next
  have effect := exec_effect next
  exact ⟨_, next, fun j => link ▸ State.readReg_writeReg s rd j _, toNat_branchTarget_toInt s.pc off, effect.flags rfl,
    frame.retired rfl, effect.halted_eq nofun, effect.sameData rfl, sameErrors_of_no_access next rfl rfl,
    frame.background⟩

/-- Settles O24: both are in the frame but for `pc` and `halted`. -/
theorem nopAdvancesAndHaltHalts : Obligations.NopAdvancesAndHaltHalts := by
  unfold Obligations.NopAdvancesAndHaltHalts
  refine fun s => ⟨?_, ?_⟩
  · have next : exec .nop s = .next s.advance.retire := rfl
    have frame := exec_frame next
    have effect := exec_effect next
    exact ⟨_, next, effect.toNat_pc rfl, effect.halted_eq nofun, effect.flags rfl, effect.sameRegs rfl,
      frame.retired rfl, effect.sameData rfl, sameErrors_of_no_access next rfl rfl, frame.background⟩
  · have next : exec .halt s = .next s.setHalted.retire := rfl
    have frame := exec_frame next
    have effect := exec_effect next
    exact ⟨_, next, effect.pc, effect.halted.trans (Bool.or_true _), effect.flags rfl, effect.sameRegs rfl,
      frame.retired rfl, effect.sameData rfl, sameErrors_of_no_access next rfl rfl, frame.background⟩

/-- Settles O25: the three rows are `invalidWord`. -/
theorem invalidWordIsNoOpOrFault : Obligations.InvalidWordIsNoOpOrFault := by
  unfold Obligations.InvalidWordIsNoOpOrFault
  intro s raw i hi
  have meaning : exec i s = invalidWord raw s := by
    simp only [List.mem_cons, List.not_mem_nil, or_false] at hi
    rcases hi with rfl | rfl | rfl <;> rfl
  rw [meaning]
  exact ⟨fun graceful => ⟨_, invalidWord_graceful graceful, toNat_nextPc s.pc, rfl, rfl, rfl, rfl, fun _ => rfl,
    fun _ => rfl, ⟨rfl, rfl⟩, rfl, rfl, rfl, rfl, rfl⟩, invalidWord_strict⟩

/-! ### Where a taken branch or a jump goes -/

theorem exec_beq_taken_pc {rs1 rs2 : RegIdx} {s : State} (h : s.readReg rs1 = s.readReg rs2) (off : BitVec 4) :
    ∃ t, exec (.beq rs1 rs2 off) s = .next t ∧ t.pc = branchTarget s.pc off :=
  ⟨_, exec_beq rs1 rs2 off s, if_pos h⟩

theorem exec_bne_taken_pc {rs1 rs2 : RegIdx} {s : State} (h : s.readReg rs1 ≠ s.readReg rs2) (off : BitVec 4) :
    ∃ t, exec (.bne rs1 rs2 off) s = .next t ∧ t.pc = branchTarget s.pc off :=
  ⟨_, exec_bne rs1 rs2 off s, if_neg h⟩

theorem exec_jal_pc (rd : RegIdx) (off : BitVec 8) (s : State) :
    ∃ t, exec (.jal rd off) s = .next t ∧ t.pc = branchTarget s.pc off := ⟨_, rfl, rfl⟩

/-- A result that completes at the target goes to the integer the target stands for. -/
theorem pc_of_branchTarget {n : Nat} {r : Result} {pc : Word} {off : BitVec n} {v : Int}
    (h : ∃ t, r = .next t ∧ t.pc = branchTarget pc off) (hv : signedValue off = v) :
    ∃ t, r = .next t ∧ (t.pc.toNat : Int) = (pc.toNat + v) % 65536 := by
  obtain ⟨t, next, target⟩ := h
  exact ⟨t, next, by rw [target, toNat_branchTarget, hv]⟩

/-- Settles O5: the decoded field's signed value is that of the word's low bits. -/
theorem branchAndJumpOffsetsAreSigned : Obligations.BranchAndJumpOffsetsAreSigned := by
  unfold Obligations.BranchAndJumpOffsetsAreSigned
  intro m w s
  rw [← toNat_imm4Field, ← toNat_imm8Field]
  exact ⟨fun row => ⟨_, _, _, by rw [decode, row], fun taken => pc_of_branchTarget (exec_beq_taken_pc taken _) rfl⟩,
    fun row => ⟨_, _, _, by rw [decode, row], fun taken => pc_of_branchTarget (exec_bne_taken_pc taken _) rfl⟩,
    fun row => ⟨_, _, by rw [decode, row], pc_of_branchTarget (exec_jal_pc _ _ s) rfl⟩⟩

/-- A field that holds the distance to a label's address takes `pc` there. -/
theorem pc_of_label {n a : Nat} {r : Result} {pc : Word} {off : BitVec n} (small : a < 65536)
    (h : ∃ t, r = .next t ∧ t.pc = branchTarget pc off) (hv : signedValue off = (a : Int) - pc.toNat) :
    ∃ t, r = .next t ∧ t.pc.toNat = a := by
  obtain ⟨t, next, target⟩ := pc_of_branchTarget h hv
  exact ⟨t, next, by omega⟩

/-- Settles O56: in reach, the assembler's field holds the distance. -/
theorem labelOffsetsReachTheirLabels : Obligations.LabelOffsetsReachTheirLabels := by
  unfold Obligations.LabelOffsetsReachTheirLabels
  intro s a rs1 rs2 rd small
  exact ⟨fun low high =>
      ⟨fun taken => pc_of_label small (exec_beq_taken_pc taken _) (signedValue_labelField4 low high),
        fun taken => pc_of_label small (exec_bne_taken_pc taken _) (signedValue_labelField4 low high)⟩,
    fun low high => pc_of_label small (exec_jal_pc rd _ s) (signedValue_labelField8 low high)⟩

end Sys2Proof.Machine
end

section
/-! O27 to O30, O37: the frames of the instructions, from `ExecFrame` and `ExecEffect` (10_state.md R27, R32; 41_alu.md
section 3; 42_load_store.md; 43_branch_jump.md; 44_special_invalid.md). -/

namespace Sys2Proof.Machine

/-- Settles O27: `rd` is each instruction's destination field, none writes Data Memory, and only LW has a data
address. -/
theorem frameOfRegisterInstructions : Obligations.FrameOfRegisterInstructions := by
  unfold Obligations.FrameOfRegisterInstructions
  intro s t rd a b imm off i hi h
  simp only [List.mem_cons, List.not_mem_nil, or_false] at hi
  have shape : fieldRd i = some rd ∧ (generateControlSignals i).memWrite = false ∧ i.mnemonic.valid = true ∧
      i ≠ .halt ∧ (i = .lw rd a imm ∨ accessesMemory i = false) := by
    rcases hi with rfl | rfl | rfl | rfl | rfl | rfl | rfl | rfl <;> simp [fieldRd, generateControlSignals, controlOf,
      aluBundle, safeBundle, accessesMemory, Instr.mnemonic, Mnemonic.valid, Mnemonic.format]
  obtain ⟨destination, noWrite, valid, running, access⟩ := shape
  have frame := exec_frame h
  have effect := exec_effect h
  refine ⟨fun j hj => effect.regs j ?_, State.readReg_zero t, effect.sameData noWrite, frame.sameInstructions,
    effect.halted_eq running, frame.background, frame.retired valid, ?_, fun inRange => ?_⟩
  · rw [destination]
    exact fun e => hj (Option.some.inj e).symm
  · rintro (rfl | rfl) <;> exact effect.flags rfl
  · refine sameErrors_of_inRange h valid ?_
    rcases access with rfl | noAccess
    · exact ⟨fun _ _ _ e => by cases e; exact inRange rfl, nofun⟩
    · exact dataInRange_of_no_access noAccess s

/-- The one data word that SW can change is the one at its effective address, in range. -/
theorem exec_sw_data {rs2 rs1 : RegIdx} {off : BitVec 4} {s t : State} (wf : s.dmem.wf = true)
    (h : exec (.sw rs2 rs1 off) s = .next t) {a : Nat}
    (other : (effectiveAddress s rs1 off).toNat < s.config.dmSize → a ≠ (effectiveAddress s rs1 off).toNat) :
    t.dmem.read a = s.dmem.read a := by
  rcases exec_sw_cases h with ⟨inRange, rfl⟩ | ⟨-, -, rfl⟩
  · exact (Memory.read_write wf _ a _).trans (if_neg (other inRange))
  · rfl

/-- Settles O28: SW has no destination field and no ALU operation; its data word is `exec_sw_data`. -/
theorem frameOfStore : Obligations.FrameOfStore := by
  unfold Obligations.FrameOfStore
  intro s t rs2 rs1 off wf h
  have frame := exec_frame h
  have effect := exec_effect h
  exact ⟨effect.sameRegs rfl, effect.flags rfl, effect.halted_eq nofun, frame.background, frame.retired rfl,
    frame.sameInstructions, fun a other => exec_sw_data wf h fun _ => other,
    fun outOfRange a => exec_sw_data wf h fun inRange => absurd inRange (Nat.not_lt.2 outOfRange),
    fun inRange => sameErrors_of_inRange h rfl ⟨nofun, fun _ _ _ e => by cases e; exact inRange⟩⟩

/-- Settles O29: none has a destination field or a data address, and only the branches have an ALU operation. -/
theorem frameOfInstructionsWithoutDestination : Obligations.FrameOfInstructionsWithoutDestination := by
  unfold Obligations.FrameOfInstructionsWithoutDestination
  intro s t a b off raw i hi h
  simp only [List.mem_cons, List.not_mem_nil, or_false] at hi
  have shape : fieldRd i = none ∧ (generateControlSignals i).memWrite = false ∧ accessesMemory i = false ∧
      (i = .beq a b off ∨ i = .bne a b off ∨ (generateControlSignals i).aluOp = none) := by
    rcases hi with rfl | rfl | rfl | rfl | rfl | rfl | rfl <;> simp [fieldRd, generateControlSignals, controlOf,
      branchBundle, safeBundle, accessesMemory, Instr.mnemonic]
  obtain ⟨noDestination, noWrite, noAccess, operation⟩ := shape
  have frame := exec_frame h
  have effect := exec_effect h
  exact ⟨effect.sameRegs noDestination, effect.sameData noWrite, frame.sameInstructions, frame.background,
    effect.halted_eq, fun notBeq notBne => effect.flags ((operation.resolve_left notBeq).resolve_left notBne),
    fun valid => sameErrors_of_no_access h valid noAccess⟩

/-- Settles O30: `pcAfter` for each row, as an integer. -/
theorem pcAdvancePerClass : Obligations.PcAdvancePerClass := by
  unfold Obligations.PcAdvancePerClass
  intro i s t h
  rw [(exec_effect h).pc]
  cases i with
  | beq | bne =>
    simp only [pcAfter]
    split
    · simp only [toNat_branchTarget_toInt, toNat_nextPc_int]
    · simp only [toNat_branchTarget_toInt, toNat_nextPc_int]
  | jal => exact toNat_branchTarget_toInt _ _
  | halt => rfl
  | _ => exact toNat_nextPc_int _

/-- Settles O37: `exec_effect` for an instruction; a halted core's step answers the state itself. -/
theorem onlyHaltSetsAndOnlyResetClearsHalted : Obligations.OnlyHaltSetsAndOnlyResetClearsHalted := by
  unfold Obligations.OnlyHaltSetsAndOnlyResetClearsHalted
  refine ⟨fun i s t h => (exec_effect h).halted, fun s => step_halted, fun s t h halted => ?_, fun s => rfl⟩
  cases (step_halted halted).symm.trans h
  exact halted

end Sys2Proof.Machine
end

section
/-! O31, O32, O34, O35, O36: the step (40_core_cycle.md R146 to R151; 20_memory.md R63; 60_exceptions.md R261 to R263,
R266), in range and out of range, under both policies. -/

namespace Sys2Proof.Machine

theorem runWord_of_fault {w : Word} {s : State} {e : Fault} (h : exec (decode s.config.opMap w) s = .fault e) :
    runWord w s = .fault e := by
  rw [runWord_eq, h]
  rfl

theorem runWord_graceful {s : State} (graceful : s.config.strict = false) (w : Word) : ∃ t, runWord w s = .next t := by
  obtain ⟨u, hu⟩ := exec_graceful graceful (decode s.config.opMap w)
  exact ⟨_, runWord_of_exec hu⟩

theorem step_outOfRange_strict {s : State} (running : s.halted = false) (outside : s.config.imSize ≤ s.pc.toNat)
    (strict : s.config.strict = true) : step s = .fault (.fetchOutOfRange s.pc) := by
  rw [step_outOfRange running outside, raise_strict strict]

theorem step_outOfRange_graceful {s : State} (running : s.halted = false) (outside : s.config.imSize ≤ s.pc.toNat)
    (graceful : s.config.strict = false) : step s = runWord 0 (s.logError (.fetchOutOfRange s.pc)) := by
  rw [step_outOfRange running outside, raise_graceful graceful]

/-- Settles O31: `runWord` on the fetched word. -/
theorem stepRunsTheDecodedInstruction : Obligations.StepRunsTheDecodedInstruction := by
  unfold Obligations.StepRunsTheDecodedInstruction
  intro s running inside w i
  rw [step_inRange running inside]
  exact ⟨fun t => runWord_of_exec, fun e => runWord_of_fault⟩

/-- Off the branches and the jump, `pc` rises by one or, at HALT, stays. -/
theorem pcAfter_of_no_target {i : Instr} (noBranch : isBranch i = false) (noJump : isJump i = false) (s : State) :
    pcAfter i s = if shouldHalt i then s.pc else s.pc + 1 := by
  cases i with
  | beq | bne => cases noBranch
  | jal => cases noJump
  | halt => rfl
  | _ => exact nextPc_eq s.pc

/-- What stages 5 and 6 leave after the word `w` ran as the instruction `i` (40_core_cycle.md R151). -/
def StagesDone (w : Word) (i : Instr) (s t : State) : Prop :=
  (isBranch i = false → isJump i = false → t.pc = if shouldHalt i then s.pc else s.pc + 1) ∧
  (∀ rs1 rs2 off, i = .beq rs1 rs2 off → s.readReg rs1 ≠ s.readReg rs2 → t.pc = s.pc + 1) ∧
  (∀ rs1 rs2 off, i = .bne rs1 rs2 off → s.readReg rs1 = s.readReg rs2 → t.pc = s.pc + 1) ∧
  t.cycles = s.cycles + 1 ∧
  t.instret = s.instret + (if i.mnemonic.valid then 1 else 0) ∧
  t.history = pushBounded 20 s.history { pc := s.pc, word := w, instr := i } ∧
  t.history.length ≤ 20

theorem runWord_stagesDone {w : Word} {s t : State} (h : runWord w s = .next t) :
    StagesDone w (decode s.config.opMap w) s t := by
  obtain ⟨u, hu, rfl⟩ := runWord_next h
  have frame := exec_frame hu
  have pc := (exec_effect hu).pc
  refine ⟨fun noBranch noJump => pc.trans (pcAfter_of_no_target noBranch noJump s), fun rs1 rs2 off row differ => ?_,
    fun rs1 rs2 off row same => ?_, frame.cycles, frame.instret, ?_, length_pushBounded_le _ _ _⟩
  · rw [row, pcAfter, if_neg differ, nextPc_eq] at pc
    exact pc
  · rw [row, pcAfter, if_pos same, nextPc_eq] at pc
    exact pc
  · rw [State.pushHistory_history, frame.history]
    rfl

/-- Settles O32: the fetched word is the one at `pc` or, out of range, 0 from the state with the error logged, which has
the same `pc`, counters, registers and history. -/
theorem stagesFiveAndSixOfEveryStep : Obligations.StagesFiveAndSixOfEveryStep := by
  unfold Obligations.StagesFiveAndSixOfEveryStep
  intro s t running h
  rcases step_next h with ⟨halted, -⟩ | ⟨-, -, ran⟩ | ⟨-, outside, -, ran⟩
  · rw [running] at halted
    cases halted
  · exact ⟨_, _, rfl, fun _ => rfl, runWord_stagesDone ran⟩
  · have stages := runWord_stagesDone ran
    exact ⟨0, _, rfl, fun inside => absurd inside (Nat.not_lt.2 outside), stages⟩

/-- Under the standard map the word 0 runs as ADD x0, x0, x0 (44_special_invalid.md R246). -/
theorem runWord_zero {s : State} (standard : s.config.opMap = OpMap.standard) :
    runWord 0 s = .next ((s.setFlags { z := true, n := false, v := false }).advance.retire.pushHistory
      { pc := s.pc, word := 0, instr := .add 0 0 0 }) := by
  have zero : decode s.config.opMap 0 = .add 0 0 0 := by
    rw [standard]
    decide
  rw [runWord_eq, zero, exec_add_zero]
  rfl

/-- Settles O34: `runWord_zero` from the state with the error logged. -/
theorem fetchOutOfRangeRunsZeroOrFaults : Obligations.FetchOutOfRangeRunsZeroOrFaults := by
  unfold Obligations.FetchOutOfRangeRunsZeroOrFaults
  refine fun s running outside => ⟨fun graceful standard => ?_, step_outOfRange_strict running outside⟩
  rw [step_outOfRange_graceful running outside graceful]
  exact ⟨_, runWord_zero standard, fun _ => rfl, fun _ => rfl, toNat_nextPc s.pc, ⟨rfl, rfl⟩, rfl, running, rfl, rfl,
    rfl⟩

/-- Settles O35: whatever the word, it runs to completion. -/
theorem gracefulStepAlwaysCompletes : Obligations.GracefulStepAlwaysCompletes := by
  unfold Obligations.GracefulStepAlwaysCompletes
  intro s graceful
  cases running : s.halted with
  | true => exact ⟨s, step_halted running⟩
  | false =>
    rcases Nat.lt_or_ge s.pc.toNat s.config.imSize with inside | outside
    · rw [step_inRange running inside]
      exact runWord_graceful graceful _
    · rw [step_outOfRange_graceful running outside graceful]
      exact runWord_graceful (s := s.logError _) graceful 0

/-- A word of a reserved row carries itself as the raw word. -/
theorem exec_decode_of_invalid {m : OpMap} {w : Word} (h : (decode m w).mnemonic.valid = false) (s : State) :
    exec (decode m w) s = invalidWord w s := by
  rw [decode_mnemonic] at h
  rw [decode]
  cases row : m.slot (opcodeField w) with
  | reservedD | reservedE | reservedF => rfl
  | _ =>
    rw [row] at h
    cases h

/-- Settles O36: the errors in the order of the stages; without one, `exec_of_inRange`. -/
theorem strictStepFaultsExactlyOnErrors : Obligations.StrictStepFaultsExactlyOnErrors := by
  unfold Obligations.StrictStepFaultsExactlyOnErrors
  intro s strict running i
  have fetched := step_inRange running
  refine ⟨fun outside => step_outOfRange_strict running outside strict, fun inside invalid => ?_,
    fun rd rs1 imm inside row outOfRange => ?_, fun rs2 rs1 off inside row outOfRange => ?_,
    fun inside valid load store => ?_⟩
  · rw [fetched inside]
    exact runWord_of_fault ((exec_decode_of_invalid invalid s).trans (invalidWord_strict strict))
  · rw [fetched inside, row]
    exact runWord_of_fault ((congrArg (exec · s) row).trans (exec_lw_strict outOfRange strict))
  · rw [fetched inside, row]
    exact runWord_of_fault ((congrArg (exec · s) row).trans (exec_sw_strict outOfRange strict))
  · obtain ⟨u, hu, -⟩ := exec_of_inRange valid ⟨load, store⟩
    rw [fetched inside]
    exact ⟨_, runWord_of_exec hu⟩

end Sys2Proof.Machine
end

section
/-! O33, O39, O40: the bounded buffers, the fetch, and accesses out of range (10_state.md R46, R47; 20_memory.md R61 to
R65). -/

namespace Sys2Proof.Machine

/-- Settles O33: the three laws of `pushBounded`; a full buffer of positive capacity has an oldest entry. -/
theorem boundedBufferOverwritesOldest : Obligations.BoundedBufferOverwritesOldest := by
  unfold Obligations.BoundedBufferOverwritesOldest
  refine ⟨fun α bound xs x => ⟨length_pushBounded_le bound xs x, fun room => pushBounded_of_lt room x,
    fun full positive => ?_⟩, fun _ _ => rfl, fun _ _ => rfl⟩
  cases xs with
  | nil =>
    rw [List.length_nil] at full
    omega
  | cons y ys => exact pushBounded_of_full full x

theorem fetch_inRange {s : State} (inside : s.pc.toNat < s.config.imSize) (k : Word → State → Result) :
    fetch s k = k (s.imem.read s.pc.toNat) s := if_pos inside

theorem fetch_outOfRange_graceful {s : State} (outside : s.config.imSize ≤ s.pc.toNat)
    (graceful : s.config.strict = false) (k : Word → State → Result) :
    fetch s k = k 0 (s.logError (.fetchOutOfRange s.pc)) := by
  rw [fetch, if_neg (Nat.not_lt.2 outside), raise_graceful graceful]

/-- A loaded program reads back, with 0 around it (20_memory.md R64). -/
theorem read_loaded (words : List Word) (start a : Nat) :
    Memory.read (Memory.writeAll [] start words) a =
      if start ≤ a ∧ a < start + words.length then words.getD (a - start) 0 else 0 :=
  Memory.read_writeAll rfl start words a

/-- Settles O39: a load writes a fresh memory; every step and reset keeps Instruction Memory as it is. -/
theorem fetchGivesTheLoadedWord : Obligations.FetchGivesTheLoadedWord := by
  unfold Obligations.FetchGivesTheLoadedWord
  refine ⟨fun s k inside => fetch_inRange inside k, fun _ _ => rfl, fun words start s t h => ?_,
    fun s t h a => by rw [(step_runFrame h).imem], fun _ _ => rfl⟩
  obtain ⟨-, -, -, rfl⟩ := loadProgram_ok h
  exact read_loaded words start

theorem State.readReg_writeReg_value_zero (s : State) (rd : RegIdx) : (s.writeReg rd 0).readReg rd = 0 := by
  by_cases h : rd = 0
  · rw [h, State.readReg_zero]
  · exact State.readReg_writeReg_self h 0

/-- Settles O40: out of range the block has no word, and LW, SW and the fetch see neither memory. -/
theorem outOfRangeAccessNeverAliases : Obligations.OutOfRangeAccessNeverAliases := by
  unfold Obligations.OutOfRangeAccessNeverAliases
  refine ⟨fun c m l v outside => ?_, fun s rd rs1 imm dm im graceful outside => ?_,
    fun s rs2 rs1 off graceful outside => ⟨_, exec_sw_graceful outside graceful, rfl, rfl⟩,
    fun s k graceful outside => fetch_outOfRange_graceful outside graceful k⟩
  · have out := not_logicalInRange_iff.2 outside
    rw [hostReadWord_outOfRange out, hostWriteWord_outOfRange out]
    exact ⟨readWord_outOfRange out m, writeWord_outOfRange out m v, fun graceful => by simp [graceful]⟩
  · exact ⟨_, exec_lw_graceful (s := { s with dmem := dm, imem := im }) outside graceful,
      State.readReg_writeReg_value_zero _ rd, rfl, rfl⟩

end Sys2Proof.Machine
end

section
/-! O49, O50: the control table (40_core_cycle.md R140 to R143) and the data path that it drives (R148 to R151). -/

namespace Sys2Proof.Machine

/-- Settles O50: the predicates read the bundle, and the mnemonic alone decides the bundle. -/
theorem controlPredicatesNameTheirMnemonics : Obligations.ControlPredicatesNameTheirMnemonics := by
  unfold Obligations.ControlPredicatesNameTheirMnemonics
  intro i
  simp only [isBranch, isJump, accessesMemory, shouldHalt, generateControlSignals]
  cases i.mnemonic <;> decide

/-- Under the bundle of an ALU instruction the data path is the shape the ALU instructions share. -/
theorem datapath_aluBundle {op : AluOp} {src : SrcB} {i : Instr} {s : State} {rd : RegIdx} {a b : Word}
    (wf : s.config.aluMap.wf = true) (hrd : fieldRd i = some rd) (ha : operandA (aluBundle op src) i s = some a)
    (hb : operandB (aluBundle op src) i s = some b) : datapath (aluBundle op src) i s = arith op rd a b s := by
  have call : aluCall (aluBundle op src) i s = some (aluResult op a b, aluFlags op a b) := by
    simp only [aluCall, ha, hb]
    exact aluExecute_codeOf wf a b op
  simp only [datapath, call, writeBack, hrd]
  rfl

/-- Under the bundle of a branch the data path is the shape the two branches share. -/
theorem datapath_branchBundle {op : AluOp} {i : Instr} {s : State} {rs1 rs2 : RegIdx} {off : BitVec 4}
    (wf : s.config.aluMap.wf = true) (h1 : fieldRs1 i = some rs1) (h2 : fieldRs2 i = some rs2)
    (target : targetFrom s.pc i = some (branchTarget s.pc off)) :
    datapath (branchBundle op) i s = branch op rs1 rs2 off s := by
  have call : aluCall (branchBundle op) i s =
      some (aluResult op (s.readReg rs1) (s.readReg rs2), aluFlags op (s.readReg rs1) (s.readReg rs2)) := by
    simp only [aluCall, operandA, operandB, branchBundle, h1, h2, Option.map_some]
    exact aluExecute_codeOf wf _ _ op
  by_cases taken : aluResult op (s.readReg rs1) (s.readReg rs2) = 1
  · rw [branch_taken taken]
    simp only [datapath, call]
    simp [branchBundle, writeBack, updatePc, targetTaken, target, taken]
  · rw [branch_untaken taken]
    have resultNotOne : (aluResult op (s.readReg rs1) (s.readReg rs2) == 1#16) = false := beq_eq_false_iff_ne.2 taken
    simp only [datapath, call]
    simp [branchBundle, writeBack, updatePc, targetTaken, resultNotOne]

/-- The data path under the table's bundle is the meaning of every valid instruction (R148 to R151). -/
theorem datapath_eq_exec {i : Instr} {s : State} (valid : i.mnemonic.valid = true) (wf : s.config.aluMap.wf = true) :
    datapath (generateControlSignals i) i s = exec i s := by
  cases i with
  | add | sub | and | or | xor | addi => exact datapath_aluBundle wf rfl rfl rfl
  | beq | bne => exact datapath_branchBundle wf rfl rfl rfl
  | lw | sw | jal | nop | halt => rfl
  | reservedD | reservedE | reservedF => cases valid

theorem pcAfter_of_increment {i : Instr} (h : (generateControlSignals i).pcUpdate = .increment) (s : State) :
    pcAfter i s = s.pc + 1 := by
  cases i with
  | beq | bne | jal | halt => cases h
  | _ => exact nextPc_eq s.pc

theorem eq_halt_iff (i : Instr) : i = .halt ↔ (generateControlSignals i).pcUpdate = .halt := by
  cases i <;> simp [generateControlSignals, controlOf, aluBundle, branchBundle, safeBundle, Instr.mnemonic]

theorem fieldRd_of_no_write {i : Instr} (h : (generateControlSignals i).regWrite = false) : fieldRd i = none := by
  cases i with
  | add | sub | and | or | xor | addi | lw | jal => cases h
  | _ => rfl

/-- Settles O49: `datapath_eq_exec`, and the fields of `ExecEffect` in the table's terms. -/
theorem controlTableSaysWhatChanges : Obligations.ControlTableSaysWhatChanges := by
  unfold Obligations.ControlTableSaysWhatChanges
  refine ⟨fun i s valid wf => datapath_eq_exec valid wf, fun i s t h => ?_⟩
  have effect := exec_effect h
  refine ⟨fun noWrite => effect.sameRegs (fieldRd_of_no_write noWrite), effect.flags, effect.sameData,
    fun increment => effect.pc.trans (pcAfter_of_increment increment s), fun mode => ?_,
    fun mode => effect.halted_eq fun row => mode ((eq_halt_iff i).1 row)⟩
  have row := (eq_halt_iff i).2 mode
  subst row
  exact ⟨effect.pc, effect.halted.trans (Bool.or_true _)⟩

end Sys2Proof.Machine
end

section
/-! O51, O52, O59: reset, creation and load_program (10_state.md R55; 20_memory.md R64; 70_reset_and_hazards.md R300 to
R303; 93_implementation_defined.md U15). -/

namespace Sys2Proof.Machine

/-- Settles O51: every clause is a field of the created state; the registers are those of `resetAll`. -/
theorem resetLeavesTheSpecifiedValues : Obligations.ResetLeavesTheSpecifiedValues := by
  unfold Obligations.ResetLeavesTheSpecifiedValues
  exact ⟨fun s => ⟨RegFile.read_resetAll s.regs, rfl, rfl, rfl, rfl, rfl, fun _ => rfl, rfl, rfl, rfl, rfl, rfl, rfl,
    rfl⟩, fun _ _ => ⟨rfl, rfl, rfl⟩, rfl⟩

section Load

variable {words : List Word} {start : Nat} {s : State}

theorem loadProgram_closed (closed : s.loadOpen = false) : loadProgram words start s = .error .noMove := if_pos closed

theorem loadProgram_tooLong (opened : s.loadOpen = true)
    (long : s.config.imSize ≤ start ∨ s.config.imSize < start + words.length) :
    loadProgram words start s = .error (.failed .capacityExceeded) := by
  rw [loadProgram, if_neg (by simp [opened]), if_pos long]

theorem loadProgram_fits (opened : s.loadOpen = true) (inside : start < s.config.imSize)
    (fits : start + words.length ≤ s.config.imSize) :
    loadProgram words start s =
      .ok { s with imem := Memory.writeAll [] start words, progLen := words.length, loaded := true } := by
  rw [loadProgram, if_neg (by simp [opened]), if_neg (by omega)]

end Load

/-- Settles O52: the three outcomes of load_program, and the memory it writes. -/
theorem loadProgramFailsOrReplacesTheProgram : Obligations.LoadProgramFailsOrReplacesTheProgram := by
  unfold Obligations.LoadProgramFailsOrReplacesTheProgram
  refine fun words start s => ⟨fun closed => ?_, fun opened long => ?_, fun opened inside fits => ?_⟩
  · rw [loadProgramBool, loadProgram_closed closed]
    exact ⟨rfl, rfl⟩
  · rw [loadProgramBool, loadProgram_tooLong opened long]
    exact ⟨rfl, rfl⟩
  · rw [loadProgramBool, loadProgram_fits opened inside fits]
    exact ⟨_, rfl, Memory.wf_writeAll rfl start words, read_loaded words start⟩

/-- A completed step closes the launch order: it counted a cycle, or the core was halted. -/
theorem step_loadOpen {s t : State} (h : step s = .next t) : t.loadOpen = false := by
  cases running : s.halted with
  | true =>
    cases (step_halted running).symm.trans h
    simp [State.loadOpen, running]
  | false =>
    obtain ⟨s', u, w, -, -, frame, rfl⟩ := step_next_frame h running
    simp [State.loadOpen, frame.cycles]

/-- Settles O59: creation and reset leave nothing that closes the launch order; a load sets its mark. -/
theorem loadsOnlyInTheLaunchOrder : Obligations.LoadsOnlyInTheLaunchOrder := by
  unfold Obligations.LoadsOnlyInTheLaunchOrder
  refine ⟨fun _ => rfl, fun _ => rfl, fun words start s t h => ?_, fun s t => step_loadOpen⟩
  obtain ⟨opened, -, -, rfl⟩ := loadProgram_ok h
  exact ⟨opened, by simp [State.loadOpen]⟩

end Sys2Proof.Machine
end

section
/-! O54: the host's run is repeated step (40_core_cycle.md R155, the spec's decision D22). Each clause goes by induction
on the budget, with the three cases of a step: the core is halted, the step completes, the step faults. -/

namespace Sys2Proof.Machine

theorem core_run_graceful {s : State} (graceful : s.config.strict = false) (n : Nat) :
    ∃ t, Sys2Proof.core.run n s = .next t := by
  induction n generalizing s with
  | zero => exact ⟨s, rfl⟩
  | succ n ih =>
    obtain ⟨u, hu⟩ := gracefulStepAlwaysCompletes s graceful
    rw [core_run_next hu]
    exact ih (by rw [(step_runFrame hu).config, graceful])

/-- Where a run leaves the state as it is, it finishes with it. -/
theorem run_finished_iff_of_idle {n : Nat} {s : State} (host : run n s = .finished s.halted s)
    (plain : Sys2Proof.core.run n s = .next s) (b : Bool) (t : State) :
    run n s = .finished b t ↔ Sys2Proof.core.run n s = .next t ∧ b = t.halted := by
  rw [host, plain]
  constructor
  · rintro ⟨⟩
    exact ⟨rfl, rfl⟩
  · rintro ⟨⟨⟩, rfl⟩
    rfl

theorem run_finished_iff (n : Nat) (s : State) (b : Bool) (t : State) :
    run n s = .finished b t ↔ Sys2Proof.core.run n s = .next t ∧ b = t.halted := by
  induction n generalizing s with
  | zero => exact run_finished_iff_of_idle rfl rfl b t
  | succ n ih =>
    cases running : s.halted with
    | true =>
      exact run_finished_iff_of_idle ((run_halted running _).trans (by rw [running])) (core_run_halted running _) b t
    | false =>
      cases hs : step s with
      | next u => rw [run_next running hs, core_run_next hs, ih]
      | fault e => simp [run_fault running hs, core_run_fault hs]
      | refused e => exact absurd hs (step_ne_refused s e)

theorem run_fault_iff (n : Nat) (s : State) (e : Fault) (u : State) :
    run n s = .fault e u ↔ ∃ k, k < n ∧ Sys2Proof.core.run k s = .next u ∧ step u = .fault e := by
  induction n generalizing s with
  | zero => exact ⟨nofun, nofun⟩
  | succ n ih =>
    cases running : s.halted with
    | true =>
      rw [run_halted running]
      refine ⟨nofun, ?_⟩
      rintro ⟨k, -, hk, hu⟩
      cases (core_run_halted running k).symm.trans hk
      cases (step_halted running).symm.trans hu
    | false =>
      cases hs : step s with
      | next v =>
        rw [run_next running hs, ih]
        constructor
        · rintro ⟨k, hk, ran, hu⟩
          exact ⟨k + 1, Nat.succ_lt_succ hk, (core_run_next hs).trans ran, hu⟩
        · rintro ⟨_ | k, hk, ran, hu⟩
          · cases ran
            cases hs.symm.trans hu
          · exact ⟨k, Nat.lt_of_succ_lt_succ hk, (core_run_next hs).symm.trans ran, hu⟩
      | fault f =>
        rw [run_fault running hs]
        constructor
        · rintro ⟨⟩
          exact ⟨0, Nat.succ_pos n, rfl, hs⟩
        · rintro ⟨_ | k, -, ran, hu⟩
          · cases ran
            cases hs.symm.trans hu
            rfl
          · cases (core_run_fault hs).symm.trans ran
      | refused r => exact absurd hs (step_ne_refused s r)

theorem run_ne_refused (n : Nat) (s : State) (e : Refusal) (u : State) : run n s ≠ .refused e u := by
  induction n generalizing s with
  | zero => exact nofun
  | succ n ih =>
    cases running : s.halted with
    | true =>
      rw [run_halted running]
      exact nofun
    | false =>
      cases hs : step s with
      | next v =>
        rw [run_next running hs]
        exact ih v
      | fault f =>
        rw [run_fault running hs]
        exact nofun
      | refused r => exact absurd hs (step_ne_refused s r)

/-- Settles O54: the lemmas above; under the graceful policy the plain steps complete, and so `run` finishes. -/
theorem runIsRepeatedStep : Obligations.RunIsRepeatedStep := by
  unfold Obligations.RunIsRepeatedStep
  refine fun n s => ⟨fun halted => run_halted halted n, fun graceful => ?_, run_finished_iff n s, run_fault_iff n s,
    run_ne_refused n s⟩
  obtain ⟨t, ht⟩ := core_run_graceful graceful n
  exact ⟨t, ht, (run_finished_iff n s _ t).2 ⟨ht, rfl⟩⟩

end Sys2Proof.Machine
end

section
/-! O55: the program file (20_memory.md R70; 30_encoding.md R117), word by word. -/

namespace Sys2Proof.Machine

theorem serialise_cons (w : Word) (ws : List Word) :
    serialise (w :: ws) = w.extractLsb' 0 8 :: w.extractLsb' 8 8 :: serialise ws := rfl

theorem toNat_lowByte (w : Word) : (w.extractLsb' 0 8).toNat = w.toNat % 256 := by simp

theorem toNat_highByte (w : Word) : (w.extractLsb' 8 8).toNat = w.toNat / 256 := by
  have := w.isLt
  simp only [BitVec.extractLsb'_toNat, Nat.shiftRight_eq_div_pow]
  omega

theorem highByte_append_lowByte (w : Word) : (w.extractLsb' 8 8 ++ w.extractLsb' 0 8 : BitVec 16) = w := by
  apply BitVec.eq_of_toNat_eq
  rw [BitVec.toNat_append, ← Nat.shiftLeft_add_eq_or_of_lt (BitVec.isLt _), toNat_lowByte, toNat_highByte,
    Nat.shiftLeft_eq]
  omega

theorem deserialise_serialise (ws : List Word) : deserialise (serialise ws) = some ws := by
  induction ws with
  | nil => rfl
  | cons w ws ih => rw [serialise_cons, deserialise, ih, highByte_append_lowByte, Option.map_some]

theorem length_serialise (ws : List Word) : (serialise ws).length = 2 * ws.length := by
  induction ws with
  | nil => rfl
  | cons w ws ih =>
    rw [serialise_cons, List.length_cons, List.length_cons, ih, List.length_cons]
    omega

theorem serialise_getD (ws : List Word) (k : Nat) :
    (serialise ws).getD (2 * k) 0 = (ws.getD k 0).extractLsb' 0 8 ∧
      (serialise ws).getD (2 * k + 1) 0 = (ws.getD k 0).extractLsb' 8 8 := by
  induction ws generalizing k with
  | nil => simp [serialise]
  | cons w ws ih =>
    cases k with
    | zero => exact ⟨rfl, rfl⟩
    | succ k => exact ih k

/-- Settles O55: the two bytes of each word, by induction on the list. -/
theorem programFileRoundTrip : Obligations.ProgramFileRoundTrip := by
  unfold Obligations.ProgramFileRoundTrip
  refine fun ws => ⟨deserialise_serialise ws, length_serialise ws, fun k _ => ?_⟩
  obtain ⟨low, high⟩ := serialise_getD ws k
  rw [low, high, toNat_lowByte, toNat_highByte]
  exact ⟨rfl, rfl⟩

end Sys2Proof.Machine
end

section
/-! O60: pass 1 (30_encoding.md R111, R116; 93_implementation_defined.md U16). The statement speaks of lines by number;
each of its terms is first unrolled at the head of the list, and then the two clauses go by induction on the lines, one
line of `scan` at a time. -/

namespace Sys2Proof.Machine

/-- No usable label of the lines repeats or is recorded already. -/
def FreshLabels (labels : LabelTable) (lines : List (List Char)) : Prop :=
  (lines.filterMap lineLabel).Nodup ∧ ∀ l ∈ lines.filterMap lineLabel, l ∉ labels.map Prod.fst

/-- What a line adds to the recorded labels. -/
def recordedAt (line : List Char) (addr : Nat) : LabelTable := ((lineLabel line).map fun l => (l, addr)).toList

/-- The address after a line. -/
def addrAfter (line : List Char) (addr : Nat) : Nat := if lineHoldsInstr line then addr + 1 else addr

/-- The address of line `k`. -/
def placeOf (lines : List (List Char)) (addr k : Nat) : Nat := addr + ((lines.take k).filter lineHoldsInstr).length

/-- The label that line `k` adds, with its address. -/
def labelAt (lines : List (List Char)) (addr k : Nat) : Option (List Char × Nat) :=
  (lineLabel (lines.getD k [])).map fun l => (l, placeOf lines addr k)

/-- Line `k` as it is placed. -/
def placedAt (lines : List (List Char)) (number addr k : Nat) : PlacedLine :=
  placeLine (lines.getD k []) (number + k) (placeOf lines addr k)

/-- The labels that the lines add. -/
def labelsOf (lines : List (List Char)) (addr : Nat) : LabelTable :=
  (List.range lines.length).filterMap (labelAt lines addr)

/-- The lines for pass 2. -/
def placedOf (lines : List (List Char)) (number addr : Nat) : List PlacedLine :=
  ((List.range lines.length).filter fun k => lineHoldsInstr (lines.getD k []) || lineLabelBad (lines.getD k [])).map
    (placedAt lines number addr)

section Head

variable (line : List Char) (rest : List (List Char)) (number addr : Nat) (labels : LabelTable)

theorem placeOf_cons_succ (k : Nat) : placeOf (line :: rest) addr (k + 1) = placeOf rest (addrAfter line addr) k := by
  rw [placeOf, placeOf, addrAfter, List.take_succ_cons, List.filter_cons]
  split
  · rw [List.length_cons]
    omega
  · rfl

theorem labelAt_cons_succ (k : Nat) : labelAt (line :: rest) addr (k + 1) = labelAt rest (addrAfter line addr) k := by
  rw [labelAt, placeOf_cons_succ, List.getD_cons_succ, labelAt]

theorem placedAt_cons_succ (k : Nat) :
    placedAt (line :: rest) number addr (k + 1) = placedAt rest (number + 1) (addrAfter line addr) k := by
  rw [placedAt, placeOf_cons_succ, List.getD_cons_succ, placedAt, Nat.add_right_comm, Nat.add_assoc]

theorem labelsOf_cons :
    labelsOf (line :: rest) addr = recordedAt line addr ++ labelsOf rest (addrAfter line addr) := by
  have tail : labelAt (line :: rest) addr ∘ Nat.succ = labelAt rest (addrAfter line addr) :=
    funext (labelAt_cons_succ line rest addr)
  rw [labelsOf, List.length_cons, List.range_succ_eq_map, List.filterMap_cons, List.filterMap_map, tail, labelsOf,
    recordedAt, labelAt, List.getD_cons_zero]
  cases lineLabel line <;> rfl

theorem placedOf_cons :
    placedOf (line :: rest) number addr =
      if lineHoldsInstr line || lineLabelBad line then
        placeLine line number addr :: placedOf rest (number + 1) (addrAfter line addr)
      else placedOf rest (number + 1) (addrAfter line addr) := by
  have tail : placedAt (line :: rest) number addr ∘ Nat.succ = placedAt rest (number + 1) (addrAfter line addr) :=
    funext (placedAt_cons_succ line rest number addr)
  rw [placedOf, List.length_cons, List.range_succ_eq_map, List.filter_cons, List.filter_map, List.getD_cons_zero]
  split
  · rw [List.map_cons, List.map_map, tail]
    rfl
  · rw [List.map_map, tail]
    rfl

/-- The labels of the lines are fresh iff the head's is, and the others are with the head's recorded. -/
theorem freshLabels_cons :
    FreshLabels labels (line :: rest) ↔
      (∀ l, lineLabel line = some l → l ∉ labels.map Prod.fst) ∧ FreshLabels (labels ++ recordedAt line addr) rest := by
  cases h : lineLabel line with
  | none => simp [FreshLabels, recordedAt, h]
  | some l =>
    simp only [FreshLabels, recordedAt, h, List.filterMap_cons, List.nodup_cons, List.forall_mem_cons, Option.map_some,
      Option.toList_some, List.map_append, List.map_cons, List.map_nil, List.mem_append, List.mem_singleton, not_or,
      Option.some.injEq, forall_eq']
    constructor
    · rintro ⟨⟨notLater, nodup⟩, notRecorded, later⟩
      exact ⟨notRecorded, nodup, fun x hx => ⟨later x hx, fun e => notLater (e ▸ hx)⟩⟩
    · rintro ⟨notRecorded, nodup, later⟩
      exact ⟨⟨fun hl => (later l hl).2 rfl, nodup⟩, notRecorded, fun x hx => (later x hx).1⟩

/-- A label that is recorded or stands on a line: the head's may be counted with either. -/
theorem mem_recorded_or_line_cons (l : List Char) :
    (l ∈ labels.map Prod.fst ∨ l ∈ (line :: rest).filterMap lineLabel) ↔
      l ∈ (labels ++ recordedAt line addr).map Prod.fst ∨ l ∈ rest.filterMap lineLabel := by
  cases h : lineLabel line <;> simp [recordedAt, h, or_assoc]

end Head

/-- Pass 1 without a repeated label. -/
theorem scan_of_fresh {lines : List (List Char)} {labels : LabelTable} (fresh : FreshLabels labels lines)
    (number addr : Nat) :
    scan lines number addr labels = .ok (labels ++ labelsOf lines addr, placedOf lines number addr) := by
  induction lines generalizing number addr labels with
  | nil => exact congrArg (fun t => Except.ok (t, [])) (List.append_nil labels).symm
  | cons line rest ih =>
    obtain ⟨head, tail⟩ := (freshLabels_cons line rest addr labels).1 fresh
    have later := ih tail (number + 1) (addrAfter line addr)
    rw [recordedAt, addrAfter] at later
    rw [scan_cons_fresh head, later, labelsOf_cons, placedOf_cons, List.append_assoc]
    rfl

/-- Line `k` repeats the label `l`, and no line before it repeats one. -/
def FirstDuplicate (labels : LabelTable) (lines : List (List Char)) (k : Nat) (l : List Char) : Prop :=
  k < lines.length ∧ lineLabel (lines.getD k []) = some l ∧ FreshLabels labels (lines.take k) ∧
    (l ∈ labels.map Prod.fst ∨ l ∈ (lines.take k).filterMap lineLabel)

theorem firstDuplicate_zero {labels : LabelTable} {line : List Char} {rest : List (List Char)} {l : List Char} :
    FirstDuplicate labels (line :: rest) 0 l ↔ lineLabel line = some l ∧ l ∈ labels.map Prod.fst := by
  simp [FirstDuplicate, FreshLabels]

theorem firstDuplicate_succ {labels : LabelTable} {line : List Char} {rest : List (List Char)} {k : Nat} {l : List Char}
    (addr : Nat) :
    FirstDuplicate labels (line :: rest) (k + 1) l ↔
      (∀ x, lineLabel line = some x → x ∉ labels.map Prod.fst) ∧
        FirstDuplicate (labels ++ recordedAt line addr) rest k l := by
  rw [FirstDuplicate, FirstDuplicate, List.take_succ_cons, freshLabels_cons line _ addr,
    mem_recorded_or_line_cons line _ addr, List.getD_cons_succ, List.length_cons, Nat.add_lt_add_iff_right]
  tauto

theorem map_eq_error_iff {ε α β : Type} {f : α → β} {x : Except ε α} {e : ε} : x.map f = .error e ↔ x = .error e := by
  cases x <;> simp [Except.map]

/-- Pass 1 refuses exactly for the first repeated label. -/
theorem scan_error_iff (lines : List (List Char)) (number addr : Nat) (labels : LabelTable) (r : AsmRefusal) :
    scan lines number addr labels = .error r ↔ ∃ k l, r = .duplicateLabel l ∧ FirstDuplicate labels lines k l := by
  induction lines generalizing number addr labels with
  | nil =>
    refine ⟨nofun, ?_⟩
    rintro ⟨k, l, -, outside, -⟩
    cases outside
  | cons line rest ih =>
    by_cases head : ∀ l, lineLabel line = some l → l ∉ labels.map Prod.fst
    · rw [scan_cons_fresh head, map_eq_error_iff, ih]
      constructor
      · rintro ⟨k, l, hr, later⟩
        exact ⟨k + 1, l, hr, (firstDuplicate_succ addr).2 ⟨head, later⟩⟩
      · rintro ⟨_ | k, l, hr, first⟩
        · obtain ⟨hl, recorded⟩ := firstDuplicate_zero.1 first
          exact absurd recorded (head l hl)
        · exact ⟨k, l, hr, ((firstDuplicate_succ addr).1 first).2⟩
    · push Not at head
      obtain ⟨l, hl, recorded⟩ := head
      rw [scan_cons_duplicate hl recorded, Except.error.injEq]
      constructor
      · rintro rfl
        exact ⟨0, l, rfl, firstDuplicate_zero.2 ⟨hl, recorded⟩⟩
      · rintro ⟨_ | k, l', rfl, first⟩
        · obtain ⟨hl', -⟩ := firstDuplicate_zero.1 first
          rw [Option.some.inj (hl.symm.trans hl')]
        · exact absurd recorded (((firstDuplicate_succ 0).1 first).1 l hl)

/-- Settles O60: `scan_error_iff` and `scan_of_fresh`. -/
theorem passOneRefusesDuplicateLabelsOnly : Obligations.PassOneRefusesDuplicateLabelsOnly := by
  unfold Obligations.PassOneRefusesDuplicateLabelsOnly
  intro lines number addr labels line place fresh
  refine ⟨fun r => (scan_error_iff lines number addr labels r).trans ?_, fun allFresh => ?_⟩
  · refine exists_congr fun k => exists_congr fun l => ⟨?_, ?_⟩
    · rintro ⟨hr, inside, hl, before, repeated⟩
      exact ⟨inside, hl, hr, before, repeated⟩
    · rintro ⟨inside, hl, hr, before, repeated⟩
      exact ⟨hr, inside, hl, before, repeated⟩
  · have whole : FreshLabels labels (lines.take lines.length) := allFresh
    rw [List.take_length] at whole
    exact scan_of_fresh whole number addr

end Sys2Proof.Machine
end

section
/-! O57: pass 2 (30_encoding.md R112 to R116; 93_implementation_defined.md U16). Either no line is refused, and then the
words and the failures are read off the lines, or some line is the first refused one, and pass 2 answers its refusal. -/

namespace Sys2Proof.Machine

section Lines

variable {m : OpMap} {labels : LabelTable}

/-- The words that the lines give, in order. -/
def wordsOf (m : OpMap) (labels : LabelTable) (lines : List PlacedLine) : List Word :=
  (lines.filterMap fun l => (encodeLine m labels l).toOption).map (encode m)

/-- The failing lines, in order. -/
def failuresOf (m : OpMap) (labels : LabelTable) (lines : List PlacedLine) : List (Nat × ErrorKind) :=
  (lines.filter fun l => decide (encodeLine m labels l = .error .invalidOperand)).map
    fun l => (l.number, ErrorKind.invalidOperand)

/-- No line is refused. -/
def NoneRefused (m : OpMap) (labels : LabelTable) (lines : List PlacedLine) : Prop :=
  ∀ p ∈ lines, ∀ q, encodeLine m labels p ≠ .error (.refuse q)

/-- The first refused line is refused with `r`. -/
def FirstRefused (m : OpMap) (labels : LabelTable) (lines : List PlacedLine) (r : AsmRefusal) : Prop :=
  ∃ (before after : List PlacedLine) (l : PlacedLine), lines = before ++ l :: after ∧
    encodeLine m labels l = .error (.refuse r) ∧ NoneRefused m labels before

theorem encodeLines_of_noneRefused {lines : List PlacedLine} (h : NoneRefused m labels lines) :
    encodeLines m labels lines = .ok (wordsOf m labels lines, failuresOf m labels lines) ∧
      (wordsOf m labels lines).length + (failuresOf m labels lines).length = lines.length := by
  induction lines with
  | nil => exact ⟨rfl, rfl⟩
  | cons l rest ih =>
    obtain ⟨head, tail⟩ := List.forall_mem_cons.1 h
    obtain ⟨later, count⟩ := ih tail
    cases hl : encodeLine m labels l with
    | ok i =>
      have words : wordsOf m labels (l :: rest) = encode m i :: wordsOf m labels rest := by
        simp [wordsOf, hl, Except.toOption]
      have failures : failuresOf m labels (l :: rest) = failuresOf m labels rest := by simp [failuresOf, hl]
      rw [words, failures, encodeLines, hl, later, List.length_cons, List.length_cons]
      exact ⟨rfl, by omega⟩
    | error e =>
      cases e with
      | refuse q => exact absurd hl (head q)
      | invalidOperand =>
        have words : wordsOf m labels (l :: rest) = wordsOf m labels rest := by simp [wordsOf, hl, Except.toOption]
        have failures : failuresOf m labels (l :: rest) = (l.number, .invalidOperand) :: failuresOf m labels rest := by
          simp [failuresOf, hl]
        rw [words, failures, encodeLines, hl, later, List.length_cons, List.length_cons]
        exact ⟨rfl, by omega⟩

theorem encodeLines_of_firstRefused {lines : List PlacedLine} {r : AsmRefusal} (h : FirstRefused m labels lines r) :
    encodeLines m labels lines = .error r := by
  obtain ⟨before, after, l, rfl, refused, earlier⟩ := h
  induction before with
  | nil => simp [encodeLines, refused]
  | cons p before ih =>
    obtain ⟨head, tail⟩ := List.forall_mem_cons.1 earlier
    have later := ih tail
    cases hp : encodeLine m labels p with
    | ok i => simp [encodeLines, hp, later]
    | error e =>
      cases e with
      | refuse q => exact absurd hp (head q)
      | invalidOperand => simp [encodeLines, hp, later]

theorem noneRefused_or_firstRefused (lines : List PlacedLine) :
    NoneRefused m labels lines ∨ ∃ r, FirstRefused m labels lines r := by
  induction lines with
  | nil => exact .inl nofun
  | cons l rest ih =>
    by_cases head : ∃ r, encodeLine m labels l = .error (.refuse r)
    · obtain ⟨r, refused⟩ := head
      exact .inr ⟨r, [], rest, l, rfl, refused, nofun⟩
    · have notRefused : ∀ q, encodeLine m labels l ≠ .error (.refuse q) := fun q hq => head ⟨q, hq⟩
      rcases ih with unrefused | ⟨r, before, after, l', rfl, refused, earlier⟩
      · exact .inl (List.forall_mem_cons.2 ⟨notRefused, unrefused⟩)
      · exact .inr ⟨r, l :: before, after, l', rfl, refused, List.forall_mem_cons.2 ⟨notRefused, earlier⟩⟩

theorem encodeLines_error_iff (lines : List PlacedLine) (r : AsmRefusal) :
    encodeLines m labels lines = .error r ↔ FirstRefused m labels lines r := by
  refine ⟨fun h => ?_, encodeLines_of_firstRefused⟩
  rcases noneRefused_or_firstRefused lines with unrefused | ⟨q, first⟩
  · cases (encodeLines_of_noneRefused unrefused).1.symm.trans h
  · cases (encodeLines_of_firstRefused first).symm.trans h
    exact first

theorem encodeLines_ok {lines : List PlacedLine} {words : List Word} {bad : List (Nat × ErrorKind)}
    (h : encodeLines m labels lines = .ok (words, bad)) :
    words = wordsOf m labels lines ∧ bad = failuresOf m labels lines ∧ words.length + bad.length = lines.length := by
  rcases noneRefused_or_firstRefused lines with unrefused | ⟨q, first⟩
  · obtain ⟨answer, count⟩ := encodeLines_of_noneRefused unrefused
    cases answer.symm.trans h
    exact ⟨rfl, rfl, count⟩
  · cases (encodeLines_of_firstRefused first).symm.trans h

/-- Every word is the encoding of a well-formed instruction. -/
theorem mem_wordsOf {lines : List PlacedLine} {w : Word} (h : w ∈ wordsOf m labels lines) :
    ∃ i : Instr, i.wellFormed m = true ∧ i.mnemonic.valid = true ∧ w = encode m i := by
  obtain ⟨i, hi, rfl⟩ := List.mem_map.1 h
  obtain ⟨l, -, hl⟩ := List.mem_filterMap.1 hi
  cases given : encodeLine m labels l with
  | error e =>
    rw [given] at hl
    cases hl
  | ok i' =>
    rw [given] at hl
    cases hl
    obtain ⟨-, wellFormed, valid⟩ := encodeLine_ok given
    exact ⟨_, wellFormed, valid, rfl⟩

end Lines

/-! ### The source line of an instruction is read back (R103, R112, R113) -/

/-- Every register's name in the table is one token that the assembler reads as that register. -/
def NamesRegisters (names : List (List Char)) : Prop :=
  ∀ r : RegIdx, isToken (names.getD r.val []) = true ∧ parseReg (names.getD r.val []) = .ok r

theorem plainNames_namesRegisters : NamesRegisters plainNames := by
  unfold NamesRegisters
  decide

theorem abiNames_namesRegisters : NamesRegisters abiNames := by
  unfold NamesRegisters
  decide

/-- The decimal digit that `decimalChars` writes. -/
def decimalDigit (k : Nat) : Char := "0123456789".toList.getD (k % 10) '0'

theorem decimalChars_eq (n : Nat) :
    decimalChars n = if n < 10 then [decimalDigit n] else if n < 100 then [decimalDigit (n / 10), decimalDigit n]
      else [decimalDigit (n / 100), decimalDigit (n / 10), decimalDigit n] := rfl

theorem digitValue_decimalDigit (k : Nat) : digitValue (decimalDigit k) = some (k % 10) := by
  have digits : ∀ d : Fin 10, digitValue ("0123456789".toList.getD d.val '0') = some d.val := by decide
  exact digits ⟨k % 10, Nat.mod_lt _ (by decide)⟩

/-- A character that stands for itself in a number and ends no token. -/
def isPlain (c : Char) : Bool := !isSeparator c && c != '(' && c != '-' && c != 'x'

theorem isPlain_iff {c : Char} : isPlain c = true ↔ isSeparator c = false ∧ c ≠ '(' ∧ c ≠ '-' ∧ c ≠ 'x' := by
  simp [isPlain, and_assoc]

theorem isPlain_decimalDigit (k : Nat) : isPlain (decimalDigit k) = true := by
  have digits : ∀ d : Fin 10, isPlain ("0123456789".toList.getD d.val '0') = true := by decide
  exact digits ⟨k % 10, Nat.mod_lt _ (by decide)⟩

theorem isPlain_of_mem_decimalChars {n : Nat} {c : Char} (h : c ∈ decimalChars n) : isPlain c = true := by
  have digit : ∃ k, c = decimalDigit k := by
    rw [decimalChars_eq] at h
    split_ifs at h <;> simp only [List.mem_cons, List.not_mem_nil, or_false] at h
    · exact ⟨_, h⟩
    · exact h.elim (⟨_, ·⟩) (⟨_, ·⟩)
    · exact h.elim (⟨_, ·⟩) fun h => h.elim (⟨_, ·⟩) (⟨_, ·⟩)
  obtain ⟨k, rfl⟩ := digit
  exact isPlain_decimalDigit k

theorem decimalChars_ne_nil (n : Nat) : decimalChars n ≠ [] := by
  rw [decimalChars_eq]
  split_ifs <;> exact List.cons_ne_nil _ _

/-- A number without an `x` is read in base 10. -/
theorem parseNumber_of_no_x {ds : List Char} (nonempty : ds ≠ []) (h : 'x' ∉ ds) :
    parseNumber ds = parseDigits 10 ds 0 := by
  unfold parseNumber
  split
  · exact absurd rfl nonempty
  · exact absurd (by decide) h
  · exact absurd (by simp) h
  · rfl

theorem parseNumber_decimalChars {n : Nat} (h : n < 1000) : parseNumber (decimalChars n) = some n := by
  have noX : 'x' ∉ decimalChars n := fun mem => absurd (isPlain_of_mem_decimalChars mem) (by decide)
  have digit : ∀ k, k % 10 < 10 := fun k => Nat.mod_lt _ (by decide)
  rw [parseNumber_of_no_x (decimalChars_ne_nil n) noX, decimalChars_eq]
  split_ifs <;> simp only [parseDigits, digitValue_decimalDigit, digit, if_true, Option.some.injEq] <;> omega

/-- A text whose every character is plain is one token. -/
theorem isToken_of_plain {t : List Char} (nonempty : t ≠ []) (h : ∀ c ∈ t, isPlain c = true) : isToken t = true := by
  have separate : ∀ c ∈ t, isSeparator c = false := fun c hc => (isPlain_iff.1 (h c hc)).1
  simpa [isToken, nonempty] using separate

theorem isToken_decimalChars (n : Nat) : isToken (decimalChars n) = true :=
  isToken_of_plain (decimalChars_ne_nil n) fun _ => isPlain_of_mem_decimalChars

theorem isToken_cons {c : Char} {t : List Char} (hc : isSeparator c = false) (h : isToken t = true) :
    isToken (c :: t) = true := by
  simp only [isToken, Bool.and_eq_true] at h
  simp [isToken, hc, h.2]

theorem isToken_signedChars (v : Int) : isToken (signedChars v) = true := by
  rw [signedChars]
  split
  · exact isToken_cons (by decide) (isToken_decimalChars _)
  · exact isToken_decimalChars _

theorem parseSigned_minus {ds : List Char} {n : Nat} (read : parseNumber ds = some n) :
    parseSigned ('-' :: ds) = some (-(n : Int)) := by
  rw [parseSigned, read]
  rfl

theorem parseSigned_of_no_minus {ds : List Char} {n : Nat} (read : parseNumber ds = some n) (h : '-' ∉ ds) :
    parseSigned ds = some (n : Int) := by
  unfold parseSigned
  split
  · exact absurd List.mem_cons_self h
  · rw [read]
    rfl

theorem parseSigned_signedChars {v : Int} (h : v.natAbs < 1000) : parseSigned (signedChars v) = some v := by
  rw [signedChars]
  split
  · rw [parseSigned_minus (parseNumber_decimalChars (by omega)), Option.some.injEq]
    omega
  · have noMinus : '-' ∉ decimalChars v.toNat := fun mem => absurd (isPlain_of_mem_decimalChars mem) (by decide)
    rw [parseSigned_of_no_minus (parseNumber_decimalChars (by omega)) noMinus, Option.some.injEq]
    omega

theorem parseImm4_decimalChars (imm : BitVec 4) : parseImm4 (decimalChars imm.toNat) = .ok imm := by
  have small := imm.isLt
  rw [parseImm4, parseNumber_decimalChars (by omega)]
  simp only [small, if_true, BitVec.ofNat_toNat, BitVec.setWidth_eq]

/-- A numeric target that the field's width can hold is the field. -/
theorem parseTarget_signedChars {n : Nat} (hn : n ≤ 8) (off : BitVec n) (labels : LabelTable) (current : Nat) :
    parseTarget n labels current (signedChars off.toInt) = .ok off := by
  have low := BitVec.le_toInt off
  have high := BitVec.toInt_lt (x := off)
  have width : 2 ^ (n - 1) ≤ 2 ^ 7 := Nat.pow_le_pow_right (by decide) (by omega)
  have width' : (2 ^ (n - 1) : Int) ≤ 128 := by exact_mod_cast width
  rw [parseTarget, parseSigned_signedChars (by omega)]
  simp only [low, high, and_self, if_true, BitVec.ofInt_toInt]

theorem isToken_memChars {reg : List Char} (off : BitVec 4) (h : isToken reg = true) :
    isToken (memChars off reg) = true := by
  have number := isToken_decimalChars off.toNat
  have bracket : isSeparator '(' = false ∧ isSeparator ')' = false := by decide
  simp only [isToken, Bool.and_eq_true] at h number
  simp [isToken, memChars, List.all_append, h.2, number.2, bracket]

theorem parseMem_memChars {reg : List Char} {r : RegIdx} (off : BitVec 4) (h : parseReg reg = .ok r) :
    parseMem (memChars off reg) = .ok (off, r) := by
  have noBracket : ∀ c ∈ decimalChars off.toNat, (c != '(') = true := fun c hc => by
    obtain ⟨-, notBracket, -⟩ := isPlain_iff.1 (isPlain_of_mem_decimalChars hc)
    exact bne_iff_ne.2 notBracket
  have offset : (memChars off reg).takeWhile (fun c => c != '(') = decimalChars off.toNat := by
    rw [memChars, List.append_assoc, List.takeWhile_append_of_pos noBracket]
    simp
  have base : (memChars off reg).dropWhile (fun c => c != '(') = '(' :: (reg ++ [')']) := by
    rw [memChars, List.append_assoc, List.dropWhile_append_of_pos noBracket]
    simp
  have closed : (reg ++ [')']).getLast? = some ')' := List.getLast?_concat
  simp only [parseMem, offset, base, closed, if_true, List.dropLast_concat, h, parseImm4_decimalChars]
  rfl

section ReadBack

variable {m : OpMap} {labels : LabelTable} {current : Nat} {name : List Char} {k : Mnemonic} {a b c : List Char}

theorem assembleTokens_line2 (token : isToken name = true) (row : mnemonicOfName (lower name) = some k)
    (defined : m.defines k = true) (ha : isToken a = true) (hb : isToken b = true) :
    assembleTokens m labels current (tokens (line2 name a b)) = parseOperands labels current k [a, b] := by
  rw [tokens_line2 token ha hb, assembleTokens_of_name row defined]

theorem assembleTokens_line3 (token : isToken name = true) (row : mnemonicOfName (lower name) = some k)
    (defined : m.defines k = true) (ha : isToken a = true) (hb : isToken b = true) (hc : isToken c = true) :
    assembleTokens m labels current (tokens (line3 name a b c)) = parseOperands labels current k [a, b, c] := by
  rw [tokens_line3 token ha hb hc, assembleTokens_of_name row defined]

theorem parseRegs3_names {names : List (List Char)} (h : NamesRegisters names) (mk : RegIdx → RegIdx → RegIdx → Instr)
    (rd rs1 rs2 : RegIdx) :
    parseRegs3 mk (names.getD rd.val []) (names.getD rs1.val []) (names.getD rs2.val []) = .ok (mk rd rs1 rs2) := by
  simp only [parseRegs3, (h _).2]
  rfl

theorem parseBranch_names {names : List (List Char)} (h : NamesRegisters names)
    (mk : RegIdx → RegIdx → BitVec 4 → Instr) (rs1 rs2 : RegIdx) (off : BitVec 4) :
    parseBranch mk labels current (names.getD rs1.val []) (names.getD rs2.val []) (signedChars off.toInt) =
      .ok (mk rs1 rs2 off) := by
  simp only [parseBranch, (h _).2, parseTarget_signedChars (by decide : 4 ≤ 8)]
  rfl

/-- The tokens of an instruction's source line give the instruction. -/
theorem assembleTokens_sourceLine {names : List (List Char)} (h : NamesRegisters names) {i : Instr}
    (valid : i.mnemonic.valid = true) (wellFormed : i.wellFormed m = true) :
    assembleTokens m labels current (tokens (sourceLine names i)) = .ok i := by
  have reg := fun r => (h r).1
  cases i with
  | add | sub | and | or | xor =>
    rw [sourceLine, assembleTokens_line3 (by decide) (by decide) wellFormed (reg _) (reg _) (reg _)]
    exact parseRegs3_names h _ _ _ _
  | addi rd rs1 imm =>
    rw [sourceLine, assembleTokens_line3 (by decide) (by decide) wellFormed (reg _) (reg _) (isToken_decimalChars _)]
    simp only [parseOperands, (h _).2, parseImm4_decimalChars]
    rfl
  | lw _ _ off | sw _ _ off =>
    rw [sourceLine, assembleTokens_line2 (by decide) (by decide) wellFormed (reg _) (isToken_memChars off (reg _))]
    simp only [parseOperands, (h _).2, parseMem_memChars off (h _).2]
    rfl
  | beq | bne =>
    rw [sourceLine, assembleTokens_line3 (by decide) (by decide) wellFormed (reg _) (reg _) (isToken_signedChars _)]
    exact parseBranch_names h _ _ _ _
  | jal rd off =>
    rw [sourceLine, assembleTokens_line2 (by decide) (by decide) wellFormed (reg _) (isToken_signedChars _)]
    simp only [parseOperands, (h _).2, parseTarget_signedChars (by decide : 8 ≤ 8)]
    rfl
  | nop | halt =>
    rw [sourceLine, tokens_token (by decide), assembleTokens_of_name (by decide) wellFormed]
    rfl
  | reservedD | reservedE | reservedF => cases valid

theorem encodeLine_sourceLine {names : List (List Char)} (h : NamesRegisters names) {i : Instr}
    (valid : i.mnemonic.valid = true) (wellFormed : i.wellFormed m = true) (number address : Nat) :
    encodeLine m labels { number := number, address := address, text := sourceLine names i, badLabel := false } =
      .ok i := by
  rw [encodeLine, assembleTokens_sourceLine h valid wellFormed]
  rfl

end ReadBack

/-- Settles O57: the two cases of `noneRefused_or_firstRefused`, and `encodeLine_sourceLine` for both name tables. -/
theorem everyLineGivesAWordOrAFailure : Obligations.EveryLineGivesAWordOrAFailure := by
  unfold Obligations.EveryLineGivesAWordOrAFailure
  refine fun m labels => ⟨fun lines words bad h => ?_, encodeLines_error_iff, fun l i marked h => ?_,
    fun i number address names hnames valid wellFormed => ?_⟩
  · obtain ⟨rfl, rfl, count⟩ := encodeLines_ok h
    exact ⟨rfl, rfl, count, fun w hw => mem_wordsOf hw⟩
  · obtain ⟨unmarked, -⟩ := encodeLine_ok h
    rw [marked] at unmarked
    cases unmarked
  · have table : NamesRegisters names := by
      simp only [List.mem_cons, List.not_mem_nil, or_false] at hnames
      rcases hnames with rfl | rfl
      · exact plainNames_namesRegisters
      · exact abiNames_namesRegisters
    exact encodeLine_sourceLine table valid wellFormed number address

end Sys2Proof.Machine
end
